-- ==== Sys2Proof/Word.lean ====
section
/-! DEFINITION. The byte and the register index: the widths of `00_scope.md` R6. -/

namespace Sys2Proof

/-- A byte (R7): a register, a memory cell, an operand, an opcode, an address, the program counter. -/
abbrev Byte := BitVec 8

/-- A register index that has passed the register-index check, 0 to 7 (`10_state.md` R21). -/
abbrev RegIdx := Fin 8

end Sys2Proof
end

