-- ==== Sys2Proof/Config.lean ====
section
/-! DEFINITION. The parameters of the hardware (`00_scope.md` R6) and the one constant the spec leaves open. The opcode
values are a table of Decode.lean, `opcode`. -/

namespace Sys2Proof.Config

/-- `SP_INDEX`: register 7 is the stack pointer (R6, R24). -/
def spIndex : RegIdx := 7

/-- `SP_RESET` (R6, R40). -/
def spReset : Byte := 0xF4#8

/-- `PC_RESET`: the entry point, fixed at address 0 (R6, R202). -/
def pcReset : Byte := 0x00#8

/-- `MEMSIZE`: the number of memory cells (R6, R50). -/
def memSize : Nat := 256

/-- DESIGN CHOICE (log 17): `DIVZERO_EXIT_CODE`, the host's exit code after MOD by zero, which `60_exceptions.md` R190 and
decision D20 leave open. It has no body, so nothing can be proved of its value; the core never reads it. Safe. -/
opaque divZeroExitCode : Nat

end Sys2Proof.Config
end

