-- ==== Sys2Proof/Syntax.lean ====
section
/-! DEFINITION. The 21 instructions as syntax (`30_encoding.md` R78), their mnemonics and the four formats (R72). -/

namespace Sys2Proof

/-- The four instruction formats of R72. -/
inductive Format where
  /-- `Z`: no operand byte. -/
  | z
  /-- `R`: operand byte `a` is a register index. -/
  | r
  /-- `RR`: operand bytes `a` and `b` are register indices. -/
  | rr
  /-- `RI`: operand byte `a` is a register index, `b` an immediate. -/
  | ri
  deriving DecidableEq, Repr

/-- How many operand bytes a format has (R72). -/
def Format.operandCount : Format → Nat
  | .z => 0
  | .r => 1
  | .rr => 2
  | .ri => 2

/-- The 21 mnemonics, in the order of R78. -/
inductive Mnemonic where
  | hlt | ret
  | push | pop | prn | call | jmp | jeq | jne | not
  | ldi
  | add | sub | mul | mod | cmp | and | or | xor | shl | shr
  deriving DecidableEq, Repr

/-- Every mnemonic once, in the order of R78. -/
def Mnemonic.all : List Mnemonic :=
  [.hlt, .ret] ++ [.push, .pop, .prn, .call, .jmp, .jeq, .jne, .not] ++ [.ldi] ++
  [.add, .sub, .mul, .mod, .cmp, .and, .or, .xor, .shl, .shr]

/-- The format R78 gives each mnemonic. -/
def Mnemonic.format : Mnemonic → Format
  | .hlt | .ret => .z
  | .push | .pop | .prn | .call | .jmp | .jeq | .jne | .not => .r
  | .ldi => .ri
  | .add | .sub | .mul | .mod | .cmp | .and | .or | .xor | .shl | .shr => .rr

/-- Whether the source says that the instruction sets `pc` itself (R79, point 2). -/
def Mnemonic.setsPc : Mnemonic → Bool
  | .ret | .call | .jmp | .jeq | .jne => true
  | .hlt | .push | .pop | .prn | .not | .ldi => false
  | .add | .sub | .mul | .mod | .cmp | .and | .or | .xor | .shl | .shr => false

/-- One instruction with its operand BYTES as they stand in memory (R77): `a` and `b` name registers, `imm` is LDI's
immediate. A register operand is one whole byte (R75), so that a byte above 7 is syntax too, ill formed
(`Instr.wf`); what it does is the InvalidRegisterIndex fault, raised by the meaning (log 13). -/
inductive Instr where
  /-- HLT (R142). -/
  | hlt
  /-- RET (R124). -/
  | ret
  /-- PUSH `ra` (R121). -/
  | push (a : Byte)
  /-- POP `ra` (R122). -/
  | pop (a : Byte)
  /-- PRN `ra` (R141). -/
  | prn (a : Byte)
  /-- CALL `ra` (R123). -/
  | call (a : Byte)
  /-- JMP `ra` (R130). -/
  | jmp (a : Byte)
  /-- JEQ `ra` (R131). -/
  | jeq (a : Byte)
  /-- JNE `ra` (R132). -/
  | jne (a : Byte)
  /-- NOT `ra` (R108). -/
  | not (a : Byte)
  /-- LDI `ra,imm` (R140). -/
  | ldi (a imm : Byte)
  /-- ADD `ra,rb` (R101). -/
  | add (a b : Byte)
  /-- SUB `ra,rb` (R102). -/
  | sub (a b : Byte)
  /-- MUL `ra,rb` (R103). -/
  | mul (a b : Byte)
  /-- MOD `ra,rb` (R104). -/
  | mod (a b : Byte)
  /-- CMP `ra,rb` (R111). -/
  | cmp (a b : Byte)
  /-- AND `ra,rb` (R105). -/
  | and (a b : Byte)
  /-- OR `ra,rb` (R106). -/
  | or (a b : Byte)
  /-- XOR `ra,rb` (R107). -/
  | xor (a b : Byte)
  /-- SHL `ra,rb` (R109). -/
  | shl (a b : Byte)
  /-- SHR `ra,rb` (R110). -/
  | shr (a b : Byte)
  deriving DecidableEq, Repr

/-- The mnemonic of an instruction. -/
def Instr.mnemonic : Instr → Mnemonic
  | .hlt => .hlt
  | .ret => .ret
  | .push _ => .push
  | .pop _ => .pop
  | .prn _ => .prn
  | .call _ => .call
  | .jmp _ => .jmp
  | .jeq _ => .jeq
  | .jne _ => .jne
  | .not _ => .not
  | .ldi _ _ => .ldi
  | .add _ _ => .add
  | .sub _ _ => .sub
  | .mul _ _ => .mul
  | .mod _ _ => .mod
  | .cmp _ _ => .cmp
  | .and _ _ => .and
  | .or _ _ => .or
  | .xor _ _ => .xor
  | .shl _ _ => .shl
  | .shr _ _ => .shr

end Sys2Proof
end

