-- ==== Sys2Proof/WellFormed.lean ====
section
/-! DEFINITION. What a well-formed instruction is (`30_encoding.md` R75) and what a well-formed opcode table is (R79). -/

namespace Sys2Proof

/-- The legal values of a register operand byte are 0 to 7 (R75). -/
def isRegByte (v : Byte) : Bool := decide (v.toNat ≤ 7)

/-- Every register operand byte names a register (R75). The immediate of LDI is any byte (R74). -/
def Instr.wf : Instr → Bool
  | .hlt => true
  | .ret => true
  | .push a => isRegByte a
  | .pop a => isRegByte a
  | .prn a => isRegByte a
  | .call a => isRegByte a
  | .jmp a => isRegByte a
  | .jeq a => isRegByte a
  | .jne a => isRegByte a
  | .not a => isRegByte a
  | .ldi a _ => isRegByte a
  | .add a b => isRegByte a && isRegByte b
  | .sub a b => isRegByte a && isRegByte b
  | .mul a b => isRegByte a && isRegByte b
  | .mod a b => isRegByte a && isRegByte b
  | .cmp a b => isRegByte a && isRegByte b
  | .and a b => isRegByte a && isRegByte b
  | .or a b => isRegByte a && isRegByte b
  | .xor a b => isRegByte a && isRegByte b
  | .shl a b => isRegByte a && isRegByte b
  | .shr a b => isRegByte a && isRegByte b

/-- R79 point 1 for one row: bits 7:6 of the opcode are the number of operand bytes. -/
def operandCountAgrees (table : Mnemonic → Byte) (m : Mnemonic) : Bool :=
  (table m).toNat / 64 == m.format.operandCount

/-- R79 point 2 for one row: bit 4 of the opcode is set exactly for the instructions that set `pc` themselves. -/
def setsPcAgrees (table : Mnemonic → Byte) (m : Mnemonic) : Bool :=
  (table m).getLsbD 4 == m.setsPc

/-- R79: the constraints on an opcode table. Points 1 and 2 for every row, point 3 (the values are pairwise different)
and point 4 (no value has bits 7:6 equal to 3). -/
def tableWf (table : Mnemonic → Byte) : Bool :=
  Mnemonic.all.all (operandCountAgrees table) &&
  Mnemonic.all.all (setsPcAgrees table) &&
  decide (Mnemonic.all.map table).Nodup &&
  Mnemonic.all.all (fun m => (table m).toNat / 64 != 3)

end Sys2Proof
end

