-- ==== Sys2Proof/Decode.lean ====
section
/-! DEFINITION. The decoder's two fields (`30_encoding.md` R73), the opcode table (R78), decoding of the three fetched
bytes (R80, R153) and the encoder (R72). -/

namespace Sys2Proof

/-- The decoder's output for one opcode byte (R73). -/
structure OpFields where
  operandCount : Nat
  setsPcDirectly : Bool
  deriving DecidableEq, Repr

/-- The decoder (R73): `op[7:6]` and `op[4]`, defined on every byte. -/
def decodeFields (op : Byte) : OpFields where
  operandCount := (op.extractLsb' 6 2).toNat
  setsPcDirectly := op.getLsbD 4

/-- PRESUMED (log 1): the opcode values of R78. The source gives none; the spec takes them from general knowledge (its
decision D1). This function is the only place of the model that holds them. Unsafe for claims about byte images. -/
def opcode : Mnemonic → Byte
  | .hlt  => 0b00000001#8
  | .ret  => 0b00010001#8
  | .push => 0b01000101#8
  | .pop  => 0b01000110#8
  | .prn  => 0b01000111#8
  | .call => 0b01010000#8
  | .jmp  => 0b01010100#8
  | .jeq  => 0b01010101#8
  | .jne  => 0b01010110#8
  | .not  => 0b01101001#8
  | .ldi  => 0b10000010#8
  | .add  => 0b10100000#8
  | .sub  => 0b10100001#8
  | .mul  => 0b10100010#8
  | .mod  => 0b10100100#8
  | .cmp  => 0b10100111#8
  | .and  => 0b10101000#8
  | .or   => 0b10101010#8
  | .xor  => 0b10101011#8
  | .shl  => 0b10101100#8
  | .shr  => 0b10101101#8

/-- The dispatch table: a byte is a known opcode when all eight bits equal a value of R78 (R80). -/
def mnemonicOf (op : Byte) : Option Mnemonic :=
  Mnemonic.all.find? (fun m => opcode m == op)

/-- The three bytes every step fetches (`44_execution_loop.md` R151). -/
structure Fetched where
  op : Byte
  a : Byte
  b : Byte
  deriving DecidableEq, Repr

/-- The instruction of a known opcode with the operand bytes its format uses (R72); the others are ignored (R76). -/
def withOperands (m : Mnemonic) (a b : Byte) : Instr :=
  match m with
  | .hlt => .hlt
  | .ret => .ret
  | .push => .push a
  | .pop => .pop a
  | .prn => .prn a
  | .call => .call a
  | .jmp => .jmp a
  | .jeq => .jeq a
  | .jne => .jne a
  | .not => .not a
  | .ldi => .ldi a b
  | .add => .add a b
  | .sub => .sub a b
  | .mul => .mul a b
  | .mod => .mod a b
  | .cmp => .cmp a b
  | .and => .and a b
  | .or => .or a b
  | .xor => .xor a b
  | .shl => .shl a b
  | .shr => .shr a b

/-- Why the decoder refuses. -/
inductive DecodeError where
  /-- The opcode byte is none of the 21 values (R80); the loop raises UnknownOpcode with it (R155). -/
  | unknownOpcode (op : Byte)
  deriving DecidableEq, Repr

/-- Decoding, total on any three bytes. Register operand bytes are kept whole; the register-index check belongs to the
meaning (R153, log 13). -/
def decode (f : Fetched) : Except DecodeError Instr :=
  match mnemonicOf f.op with
  | none => .error (.unknownOpcode f.op)
  | some m => .ok (withOperands m f.a f.b)

/-- The bytes of an instruction in address order: the opcode byte, then its operand bytes (R72). -/
def encode : Instr → List Byte
  | .hlt => [opcode .hlt]
  | .ret => [opcode .ret]
  | .push a => [opcode .push, a]
  | .pop a => [opcode .pop, a]
  | .prn a => [opcode .prn, a]
  | .call a => [opcode .call, a]
  | .jmp a => [opcode .jmp, a]
  | .jeq a => [opcode .jeq, a]
  | .jne a => [opcode .jne, a]
  | .not a => [opcode .not, a]
  | .ldi a imm => [opcode .ldi, a, imm]
  | .add a b => [opcode .add, a, b]
  | .sub a b => [opcode .sub, a, b]
  | .mul a b => [opcode .mul, a, b]
  | .mod a b => [opcode .mod, a, b]
  | .cmp a b => [opcode .cmp, a, b]
  | .and a b => [opcode .and, a, b]
  | .or a b => [opcode .or, a, b]
  | .xor a b => [opcode .xor, a, b]
  | .shl a b => [opcode .shl, a, b]
  | .shr a b => [opcode .shr, a, b]

/-- Byte `k` of a number laid out with its first byte in bits 7..0, the second in bits 15..8, and so on. -/
def byteOf (w k : Nat) : Byte := BitVec.ofNat 8 (w / 256 ^ k)

/-- The three bytes an instruction word of `nbits` bits puts at `pc`, `pc+1`, `pc+2`; every bit above `nbits` is 0. -/
def fetchedOfWord (nbits w : Nat) : Fetched :=
  let v := w % 2 ^ nbits
  ⟨byteOf v 0, byteOf v 1, byteOf v 2⟩

/-- The instruction the decoder reads from a word numbered as `opcode_table.json` numbers it. -/
def decodeTableWord (nbits w : Nat) : Option Instr :=
  match decode (fetchedOfWord nbits w) with
  | .ok i => some i
  | .error _ => none

end Sys2Proof
end

