-- ==== Sys2Proof/Machine/State.lean ====
section
/-! DEFINITION. The state of the core (`10_state.md` R20), the reasons a step can stop, and the state after reset
(`70_reset_and_hazards.md` R201). -/

namespace Sys2Proof.Machine

/-- The flags register FL: Equal, Less, Greater (R30). -/
structure Flags where
  E : Bool
  L : Bool
  G : Bool
  deriving DecidableEq, Repr

/-- The run state (R34). -/
inductive RunState where
  | running
  | halted
  | fatalError
  deriving DecidableEq, Repr

/-- The causes of the fault record (R35, `60_exceptions.md` R171). -/
inductive Cause where
  | none
  | hlt
  | unknownOpcode
  | divisionByZero
  | invalidRegisterIndex
  deriving DecidableEq, Repr

/-- What is recorded when the core leaves `running`: a cause and its information byte (R35). -/
structure StopRecord where
  cause : Cause
  info : Byte
  deriving DecidableEq, Repr

/-- Memory as plain data (`20_memory.md` R50): the cells that differ from `Memory.unlisted`, by rising address
(`Memory.wf`). It is reached through `Memory.read` and `Memory.write` only. -/
abbrev Memory := List Host.Cell

/-- The whole state of the core and its output channel (R20). -/
structure State where
  /-- `x[0]` .. `x[7]`; entry 7 is the stack pointer (R21, R24). -/
  regs : Vector Byte 8
  /-- The program counter (R26). -/
  pc : Byte
  /-- The flags (R30). -/
  fl : Flags
  /-- `M[0]` .. `M[255]` (R50). -/
  mem : Memory
  /-- `state` of the spec's pseudocode (R34). -/
  runState : RunState
  /-- `cause` of the fault record (R35). -/
  cause : Cause
  /-- `info` of the fault record (R35). -/
  info : Byte
  /-- `Out`: the bytes PRN has emitted since reset, oldest first (R41; the spec carries the
  channel beside the machine state, log 16). -/
  out : List Byte
  deriving DecidableEq, Repr

/-- Why a step of the MODEL stops. The faults of the hardware (R171) are not here: they are next states, whose run
state is terminal. -/
inductive Fault where
  /-- Raised by `step` in the terminal states `halted` and `fatalError`, where no step is enabled (R159). Safe: the
  hardware takes no step there either (log 11). -/
  | runOver (at_ : RunState)
  deriving DecidableEq, Repr

/-- Why an instruction has no meaning. -/
inductive Refusal where
  /-- An arm of `exec` without a meaning. No arm answers it: all 21 instructions have their meaning. Safe. -/
  | notModelled (mnemonic : String)
  deriving DecidableEq, Repr

/-- The state right after reset with an empty image (R200, R201, R204). PRESUMED: the zeros of registers 0 to 6 (log 2),
of the flags (log 3) and of memory (log 4) are the spec's decisions D5, D6, D7, not the source's; unsafe for a program
that reads one of them before writing it. -/
def State.reset : State where
  regs := #v[0x00#8, 0x00#8, 0x00#8, 0x00#8, 0x00#8, 0x00#8, 0x00#8, Config.spReset]
  pc := Config.pcReset
  fl := ⟨false, false, false⟩
  mem := []
  runState := .running
  cause := .none
  info := 0x00#8
  out := []

end Sys2Proof.Machine
end

