-- ==== Sys2Proof/Machine/Ops.lean ====
section
/-! DEFINITION. The named operations over memory, registers, the output channel and the program counter (`00_scope.md` R8),
the fetch, and leaving `running`. Every meaning is written with these. -/

namespace Sys2Proof.Machine

/-! ### Memory (`20_memory.md` R50, R51) -/

/-- PRESUMED (log 4): what a cell that nothing has written reads as, R40's row for the cells outside the image (decision
D7). Unsafe for a program that reads such a cell. -/
def Memory.unlisted : Byte := 0x00#8

/-- The canonical form: addresses strictly rising and below 256, and no cell that equals `Memory.unlisted`. -/
abbrev Memory.wf (m : Memory) : Prop :=
  m.Pairwise (fun p q => p.1 < q.1) ∧ ∀ c ∈ m, c.1 < Config.memSize ∧ c.2 ≠ Memory.unlisted

/-- The byte listed at a cell index, if any. -/
def Memory.find (m : Memory) (k : Nat) : Option Byte :=
  match m with
  | [] => none
  | c :: rest => if c.1 = k then some c.2 else Memory.find rest k

/-- `MemRead(a, 1)` (R51). The address is a byte, so that no access is out of range (R65). -/
def Memory.read (m : Memory) (a : Byte) : Byte :=
  (m.find a.toNat).getD Memory.unlisted

/-- Put a cell at its place by rising address. -/
def Memory.insertCell (c : Host.Cell) (m : Memory) : Memory :=
  match m with
  | [] => [c]
  | d :: rest => if c.1 < d.1 then c :: d :: rest else d :: Memory.insertCell c rest

/-- `MemWrite(a, 1, v)` (R51), which keeps the canonical form. -/
def Memory.write (m : Memory) (a v : Byte) : Memory :=
  let others := m.filter (fun c => c.1 != a.toNat)
  if v = Memory.unlisted then others else Memory.insertCell (a.toNat, v) others

/-- The memory that holds an image from cell `k` on, in order (`70_reset_and_hazards.md` R203). -/
def Memory.ofImageAt (k : Nat) (image : List Byte) : Memory :=
  match image with
  | [] => []
  | v :: rest =>
    if v = Memory.unlisted then Memory.ofImageAt (k + 1) rest else (k, v) :: Memory.ofImageAt (k + 1) rest

/-! ### Accessors of the state -/

/-- `x[i]` (`10_state.md` R21). -/
def State.reg (s : State) (i : RegIdx) : Byte := s.regs[i]

/-- `x[i] <- v` (R21). No register is hardwired (R25). -/
def State.setReg (s : State) (i : RegIdx) (v : Byte) : State := { s with regs := s.regs.set i v }

/-- `SP`, another spelling of `x[7]` (R24). -/
def State.sp (s : State) : Byte := s.reg Config.spIndex

/-- `SP <- v` (R24). -/
def State.setSp (s : State) (v : Byte) : State := s.setReg Config.spIndex v

/-- `pc <- t`. -/
def State.setPc (s : State) (t : Byte) : State := { s with pc := t }

/-- All three flag bits at once, as CMP writes them (R32). -/
def State.setFl (s : State) (f : Flags) : State := { s with fl := f }

/-- `MemRead(a, 1)` of the state's memory. -/
def State.memRead (s : State) (a : Byte) : Byte := s.mem.read a

/-- `MemWrite(a, 1, v)` of the state's memory. -/
def State.memWrite (s : State) (a v : Byte) : State := { s with mem := s.mem.write a v }

/-- `Out(v)`: append to the output channel (R41, `00_scope.md` R11). -/
def State.emit (s : State) (v : Byte) : State := { s with out := s.out ++ [v] }

/-! ### The stack pointer (`41_stack_call.md` R120, R125) -/

/-- `SP <- (SP - 1) mod 256`. -/
def State.decSp (s : State) : State := s.setSp (s.sp - 1#8)

/-- `SP <- (SP + 1) mod 256`. -/
def State.incSp (s : State) : State := s.setSp (s.sp + 1#8)

/-! ### Fetch and advance (`44_execution_loop.md` R151, R154) -/

/-- The three fetch reads, at `pc`, `pc + 1`, `pc + 2`. UNVERIFIED (log 5): modulo 256 at the top of memory, the spec's
decision D8 (R28); unsafe for an instruction fetched across address 255. -/
def State.fetch (s : State) : Fetched where
  op := s.memRead s.pc
  a := s.memRead (s.pc + 1#8)
  b := s.memRead (s.pc + 2#8)

/-- `(pc + 2) mod 256`: the return address of CALL (R123) and where JEQ and JNE go when not taken (R131, R132).
UNVERIFIED (log 5), as for the fetch. -/
def State.pcPlus2 (s : State) : Byte := s.pc + 2#8

/-- The loop's advance (R154): by `1 + op[7:6]`, unless `op[4]` says that the instruction sets `pc` itself. UNVERIFIED
(log 5): modulo 256, as for the fetch. -/
def State.advance (s : State) (op : Byte) : State :=
  if (decodeFields op).setsPcDirectly then s
  else s.setPc (s.pc + BitVec.ofNat 8 (1 + (decodeFields op).operandCount))

/-! ### Leaving `running`: fault entry (`60_exceptions.md` R181) and HLT (`43_direct.md` R142) -/

/-- The run state each cause ends in (R35, R171). -/
def Cause.runState : Cause → RunState
  | .none => .running
  | .hlt => .halted
  | .unknownOpcode => .fatalError
  | .divisionByZero => .halted
  | .invalidRegisterIndex => .fatalError

/-- The numeric code of a cause (R171). -/
def Cause.code : Cause → Nat
  | .none => 0
  | .hlt => 1
  | .unknownOpcode => 2
  | .divisionByZero => 3
  | .invalidRegisterIndex => 4

/-- What `raise F(info)` does, and HLT with cause `Hlt`: write the terminal run state, `cause` and `info`, and nothing
else (R181, R142). There is no vector, no saved state, and no return from a fault (R183). -/
def State.stop (s : State) (r : StopRecord) : State :=
  { s with runState := r.cause.runState, cause := r.cause, info := r.info }

/-- The loop around one operation (R150, R153, R154): where the operation raised a fault, only the run state and the
fault record of the state BEFORE it change (R182); otherwise the loop advances by the opcode's two fields (log 12). -/
def perform (m : Mnemonic) (operation : Except StopRecord State) (before : State) :
    Host.Outcome State Fault Refusal :=
  match operation with
  | .error r => .next (before.stop r)
  | .ok t => .next (t.advance (opcode m))

end Sys2Proof.Machine
end

