-- ==== Sys2Proof/Machine/Flags.lean ====
section
/-! DEFINITION. The flag computation of CMP (`40_alu.md` R111), the branch condition (`42_branch.md` R131, R132) and FL seen
as a byte (`10_state.md` R31). -/

namespace Sys2Proof.Machine

/-- CMP's three flag bits from its two operands, compared as unsigned bytes (R111, R112). -/
def compareFlags (x y : Byte) : Flags :=
  if x = y then ⟨true, false, false⟩
  else if x.toNat < y.toNat then ⟨false, true, false⟩
  else ⟨false, false, true⟩

/-- The only flag a branch reads (R32). -/
def State.equalFlag (s : State) : Bool := s.fl.E

/-- PRESUMED (log 18): FL as one byte, `0b00000LGE` (R31, decision D4). Only the trace tap sees it. -/
def Flags.toByte (f : Flags) : Byte :=
  BitVec.ofNat 8 ((if f.L then 4 else 0) + (if f.G then 2 else 0) + (if f.E then 1 else 0))

end Sys2Proof.Machine
end

