-- ==== Sys2Proof/Machine/Operands.lean ====
section
/-! DEFINITION. The register-index check and the operand forms (`30_encoding.md` R72, R75): no operand (format `Z`), one
register byte (`R`, and the first byte of `RI`), two register bytes (`RR`). An immediate is used as it stands (R74). -/

namespace Sys2Proof.Machine

/-- `reg(v)` (R75). UNVERIFIED (log 6): above 7 it is the fault InvalidRegisterIndex, the spec's decision D9 for a case
its source leaves undefined; bits 7:3 are never dropped. Safe. -/
def reg (v : Byte) : Except StopRecord RegIdx :=
  if h : v.toNat < 8 then .ok ⟨v.toNat, h⟩ else .error ⟨.invalidRegisterIndex, v⟩

/-- An operation on one register operand: the check comes before anything is read or written (R75). -/
def onReg (a : Byte) (f : RegIdx → Except StopRecord State) : Except StopRecord State :=
  match reg a with
  | .error r => .error r
  | .ok ra => f ra

/-- An operation on two register operands: `a` is checked before `b`, both before anything is read or written (R75). -/
def onRegs (a b : Byte) (f : RegIdx → RegIdx → Except StopRecord State) : Except StopRecord State :=
  onReg a (fun ra => onReg b (fun rb => f ra rb))

end Sys2Proof.Machine
end

