-- ==== Sys2Proof/Machine/Alu.lean ====
section
/-! DEFINITION. The eleven ALU instructions (`40_alu.md`). -/

namespace Sys2Proof.Machine

/-! ### What the ALU computes, on unsigned bytes reduced modulo 256 (R112) -/

/-- `(x + y) mod 256` (R101). -/
def aluAdd (x y : Byte) : Byte := x + y

/-- `(x - y) mod 256`, the non-negative remainder (R102). -/
def aluSub (x y : Byte) : Byte := x - y

/-- `(x * y) mod 256`: the low 8 bits of the product (R103). -/
def aluMul (x y : Byte) : Byte := BitVec.ofNat 8 (x.toNat * y.toNat)

/-- `x mod y`, unsigned, for `y` not 0 (R104). -/
def aluMod (x y : Byte) : Byte := BitVec.ofNat 8 (x.toNat % y.toNat)

/-- Bitwise and (R105). -/
def aluAnd (x y : Byte) : Byte := x &&& y

/-- Bitwise or (R106). -/
def aluOr (x y : Byte) : Byte := x ||| y

/-- Bitwise exclusive or (R107). -/
def aluXor (x y : Byte) : Byte := x ^^^ y

/-- Bitwise complement (R108). -/
def aluNot (x : Byte) : Byte := ~~~x

/-- `(x * 2^n) mod 256` with the whole byte `n` as the count (R109). UNVERIFIED (log 7): the count is not masked, the
spec's decision D10; unsafe for counts of 8 or more. -/
def aluShl (x n : Byte) : Byte := BitVec.ofNat 8 (x.toNat * 2 ^ n.toNat)

/-- `floor(x / 2^n)` with the whole byte `n` as the count: a logical shift (R110). UNVERIFIED (log 7), as for SHL. -/
def aluShr (x n : Byte) : Byte := BitVec.ofNat 8 (x.toNat / 2 ^ n.toNat)

/-- The shape of the two-operand ALU instructions (R100): `x[ra] <- f(x[ra], x[rb])`. -/
def aluBinary (f : Byte → Byte → Byte) (a b : Byte) (s : State) : Except StopRecord State :=
  onRegs a b (fun ra rb => .ok (s.setReg ra (f (s.reg ra) (s.reg rb))))

/-! ### The meanings -/

/-- ADD (R101). -/
def execAdd (a b : Byte) (s : State) : Host.Outcome State Fault Refusal :=
  perform .add (aluBinary aluAdd a b s) s

/-- SUB (R102). -/
def execSub (a b : Byte) (s : State) : Host.Outcome State Fault Refusal :=
  perform .sub (aluBinary aluSub a b s) s

/-- MUL (R103). -/
def execMul (a b : Byte) (s : State) : Host.Outcome State Fault Refusal :=
  perform .mul (aluBinary aluMul a b s) s

/-- MOD (R104): a zero divisor, tested after the register-index checks, is the fault DivisionByZero, which ends in
`halted` and writes no register and no memory. UNVERIFIED (log 8): `pc` stays at the MOD, the spec's decision D12. -/
def execMod (a b : Byte) (s : State) : Host.Outcome State Fault Refusal :=
  perform .mod
    (onRegs a b (fun ra rb =>
      if s.reg rb = 0#8 then .error ⟨.divisionByZero, 0#8⟩
      else .ok (s.setReg ra (aluMod (s.reg ra) (s.reg rb)))))
    s

/-- AND (R105). -/
def execAnd (a b : Byte) (s : State) : Host.Outcome State Fault Refusal :=
  perform .and (aluBinary aluAnd a b s) s

/-- OR (R106). -/
def execOr (a b : Byte) (s : State) : Host.Outcome State Fault Refusal :=
  perform .or (aluBinary aluOr a b s) s

/-- XOR (R107). -/
def execXor (a b : Byte) (s : State) : Host.Outcome State Fault Refusal :=
  perform .xor (aluBinary aluXor a b s) s

/-- NOT (R108): one register operand. -/
def execNot (a : Byte) (s : State) : Host.Outcome State Fault Refusal :=
  perform .not (onReg a (fun ra => .ok (s.setReg ra (aluNot (s.reg ra))))) s

/-- SHL (R109). -/
def execShl (a b : Byte) (s : State) : Host.Outcome State Fault Refusal :=
  perform .shl (aluBinary aluShl a b s) s

/-- SHR (R110). -/
def execShr (a b : Byte) (s : State) : Host.Outcome State Fault Refusal :=
  perform .shr (aluBinary aluShr a b s) s

/-- CMP (R111): writes all three flags and no register (C1). -/
def execCmp (a b : Byte) (s : State) : Host.Outcome State Fault Refusal :=
  perform .cmp (onRegs a b (fun ra rb => .ok (s.setFl (compareFlags (s.reg ra) (s.reg rb))))) s

end Sys2Proof.Machine
end

