-- ==== Sys2Proof/Machine/Branch.lean ====
section
/-! DEFINITION. JMP, JEQ and JNE (`42_branch.md`). The register operand is checked whether or not the branch is taken
(R75, decision D22). -/

namespace Sys2Proof.Machine

/-- A branch to `x[ra]` when the condition holds, else to `pc + 2` (R131, R132). -/
def branchIf (c : Bool) (ra : RegIdx) (s : State) : State :=
  s.setPc (if c then s.reg ra else s.pcPlus2)

/-- JMP (R130). -/
def execJmp (a : Byte) (s : State) : Host.Outcome State Fault Refusal :=
  perform .jmp (onReg a (fun ra => .ok (s.setPc (s.reg ra)))) s

/-- JEQ (R131): taken when `FL.E` is 1. -/
def execJeq (a : Byte) (s : State) : Host.Outcome State Fault Refusal :=
  perform .jeq (onReg a (fun ra => .ok (branchIf s.equalFlag ra s))) s

/-- JNE (R132): taken when `FL.E` is 0. -/
def execJne (a : Byte) (s : State) : Host.Outcome State Fault Refusal :=
  perform .jne (onReg a (fun ra => .ok (branchIf (!s.equalFlag) ra s))) s

end Sys2Proof.Machine
end

