-- ==== Sys2Proof/Machine/Direct.lean ====
section
/-! DEFINITION. LDI, PRN and HLT (`43_direct.md`). -/

namespace Sys2Proof.Machine

/-- LDI (R140): the immediate is stored as it stands and is never checked as a register. -/
def execLdi (a imm : Byte) (s : State) : Host.Outcome State Fault Refusal :=
  perform .ldi (onReg a (fun ra => .ok (s.setReg ra imm))) s

/-- PRN (R141): append the register to the output channel. -/
def execPrn (a : Byte) (s : State) : Host.Outcome State Fault Refusal :=
  perform .prn (onReg a (fun ra => .ok (s.emit (s.reg ra)))) s

/-- HLT (R142): the run ends in `halted` with cause `Hlt`, and there is no advance: the loop tests for HLT before it
dispatches and advances (R152). UNVERIFIED (log 8): `pc` stays at the HLT, the spec's decision D13. -/
def execHlt (s : State) : Host.Outcome State Fault Refusal :=
  .next (s.stop ⟨.hlt, 0#8⟩)

end Sys2Proof.Machine
end

