-- ==== Sys2Proof/Machine/Stack.lean ====
section
/-! DEFINITION. PUSH, POP, CALL and RET (`41_stack_call.md`). The statements of each block take effect in the order the
spec writes them (R120). UNVERIFIED (log 9): so PUSH and CALL read their operand after `SP` was decremented, and POP
increments `SP` after its operand was written, which shows when the operand is register 7 (R126, decision D14). -/

namespace Sys2Proof.Machine

/-- PUSH (R121): decrement `SP`, then store the register there. -/
def execPush (a : Byte) (s : State) : Host.Outcome State Fault Refusal :=
  perform .push
    (onReg a (fun ra =>
      let t := s.decSp
      .ok (t.memWrite t.sp (t.reg ra))))
    s

/-- POP (R122): load the register from `M[SP]`, then increment `SP`. -/
def execPop (a : Byte) (s : State) : Host.Outcome State Fault Refusal :=
  perform .pop (onReg a (fun ra => .ok (s.setReg ra (s.memRead s.sp)).incSp)) s

/-- CALL (R123): decrement `SP`, store the return address there, jump to the register. -/
def execCall (a : Byte) (s : State) : Host.Outcome State Fault Refusal :=
  perform .call
    (onReg a (fun ra =>
      let t := s.decSp
      let u := t.memWrite t.sp t.pcPlus2
      .ok (u.setPc (u.reg ra))))
    s

/-- RET (R124): jump to `M[SP]`, then increment `SP`. No operand, no fault. -/
def execRet (s : State) : Host.Outcome State Fault Refusal :=
  perform .ret (.ok (s.setPc (s.memRead s.sp)).incSp) s

end Sys2Proof.Machine
end

