-- ==== Sys2Proof/Machine/Fetch.lean ====
section
/-! DEFINITION. What the loop does with a fetch that decodes to no instruction (`44_execution_loop.md` R155), placing bytes
where the next step fetches, and reset with an image (`70_reset_and_hazards.md` R200 to R204). -/

namespace Sys2Proof.Machine

/-- UnknownOpcode (R155, `60_exceptions.md` R172): `info` is the opcode byte; the operand bytes are not examined (R179).
UNVERIFIED (log 8): `pc` keeps the address of the byte, the spec's decision D13. -/
def raiseDecodeError (e : DecodeError) (s : State) : Host.Outcome State Fault Refusal :=
  match e with
  | .unknownOpcode op => .next (s.stop ⟨.unknownOpcode, op⟩)

/-- The three bytes placed at `pc`, `pc + 1`, `pc + 2`, where the next step fetches them. -/
def State.placeAtPc (s : State) (f : Fetched) : State :=
  ((s.memWrite s.pc f.op).memWrite (s.pc + 1#8) f.a).memWrite (s.pc + 2#8) f.b

/-- Reset with the Loader's image (R200, R201): byte `k` of the image is `M[k]` (R203) and every other piece of state is at
its reset value. UNVERIFIED (log 15): an image of more than 256 bytes is the Loader's error and never the core's (R204,
decision D17), so reset is not defined for it. Safe. -/
def State.loadImage (image : List Byte) : Option State :=
  if image.length ≤ Config.memSize then some { State.reset with mem := Memory.ofImageAt 0 image } else none

end Sys2Proof.Machine
end

