-- ==== Sys2Proof/Machine/Step.lean ====
section
/-! DEFINITION. One step of the core (`44_execution_loop.md` R150) and the placing of an instruction where it fetches. -/

namespace Sys2Proof.Machine

/-- One step: fetch, decode, dispatch (R150). An unknown opcode is the fault UnknownOpcode (R155), a next state whose run
state is terminal; in a terminal state no step is enabled and the run is over (R159, log 11). -/
def step (s : State) : Host.Outcome State Fault Refusal :=
  match s.runState with
  | .running =>
    match decode s.fetch with
    | .ok i => exec i s
    | .error e => raiseDecodeError e s
  | .halted => .fault (.runOver .halted)
  | .fatalError => .fault (.runOver .fatalError)

/-- `s` with the bytes of an instruction word at `pc`, `pc + 1`, `pc + 2`, where the next step fetches; the run state is
not touched, so a state whose run is over stays over (log 14). -/
def State.withFetchWord (s : State) (nbits w : Nat) : State :=
  s.placeAtPc (fetchedOfWord nbits w)

end Sys2Proof.Machine
end

