-- ==== Sys2Proof/Machine/HostView.lean ====
section
/-! DEFINITION. What the host can see of the core (`70_reset_and_hazards.md` R212): the trace tap (`60_exceptions.md` R188),
the status outputs (`00_scope.md` R12), the printed text (R11) and the exit codes (R190). All only read the state. -/

namespace Sys2Proof.Machine

/-- The tuple the trace tap samples (R188). -/
structure TraceLine where
  pc : Byte
  fl : Byte
  op : Byte
  a : Byte
  b : Byte
  x : Vector Byte 8
  deriving DecidableEq, Repr

/-- The trace tap at a step, after the fetch and before the operation (R188); none where no step is enabled (R159).
PRESUMED (log 18): the packing of FL and the sampling point are the spec's decisions D4 and D21. -/
def State.trace (s : State) : Option TraceLine :=
  match s.runState with
  | .running => some ⟨s.pc, s.fl.toByte, s.fetch.op, s.fetch.a, s.fetch.b, s.regs⟩
  | .halted => none
  | .fatalError => none

/-- The status outputs (R12): the run state, and once it is not `running` the fault record. -/
def State.statusOutputs (s : State) : RunState × Option StopRecord :=
  (s.runState, match s.runState with
    | .running => none
    | .halted => some ⟨s.cause, s.info⟩
    | .fatalError => some ⟨s.cause, s.info⟩)

/-- What the host has written to standard output: each byte of `Out` in decimal, one per line (`00_scope.md` R11). -/
def State.stdout (s : State) : String :=
  String.join (s.out.map (fun v => Nat.repr v.toNat ++ "\n"))

/-- The exit code the host gives each cause (R190); for MOD by zero it is the open constant (log 17). -/
def Cause.exitCode : Cause → Option Nat
  | .none => Option.none
  | .hlt => some 0
  | .unknownOpcode => some 1
  | .divisionByZero => some Config.divZeroExitCode
  | .invalidRegisterIndex => some 1

/-- The host's exit code for a run that ended in this state; none while it is running. -/
def State.exitCode (s : State) : Option Nat := s.cause.exitCode

end Sys2Proof.Machine
end

