-- ==== Sys2Proof/Safety.lean ====
section
/-! DEFINITION. The terms claims use: the invariant of the core, the end of a run, being reached, which register a byte names,
and what a change of state keeps. -/

namespace Sys2Proof.Machine

/-! ### The invariant -/

/-- At most one condition bit is set: exactly one after any CMP, none before the first (`10_state.md` R30). -/
abbrev Flags.exclusive (f : Flags) : Prop :=
  ¬(f.E = true ∧ f.L = true) ∧ ¬(f.E = true ∧ f.G = true) ∧ ¬(f.L = true ∧ f.G = true)

/-- The run state, `cause` and `info` are a row of the table of `10_state.md` R35, or the values after reset. -/
abbrev State.recordLegal (s : State) : Prop :=
  s.runState = s.cause.runState ∧
  (s.cause = .none ∨ s.cause = .hlt ∨ s.cause = .divisionByZero → s.info = 0#8) ∧
  (s.cause = .unknownOpcode → mnemonicOf s.info = none) ∧
  (s.cause = .invalidRegisterIndex → 7 < s.info.toNat)

/-- The invariant of the core: canonical memory, exclusive flags, a legal fault record. -/
abbrev State.Inv (s : State) : Prop :=
  s.mem.wf ∧ s.fl.exclusive ∧ s.recordLegal

/-! ### Runs -/

/-- The normal end of a run (`44_execution_loop.md` R158). -/
abbrev State.endedNormally (s : State) : Prop := s.runState = .halted ∧ s.cause = .hlt

/-- `t` is reached from `s` by steps that each answer a next state (R157). -/
inductive Reaches : State → State → Prop where
  | refl (s : State) : Reaches s s
  | step {s t u : State} : Reaches s t → Machine.step t = .next u → Reaches s u

/-! ### Operands -/

/-- The operand byte `v` names register `r` (`30_encoding.md` R75). -/
abbrev namesReg (v : Byte) (r : RegIdx) : Prop := v.toNat = r.val

/-! ### What a change of state keeps -/

/-- Every register but `r` is unchanged. -/
def RegsKeptBut (s t : State) (r : RegIdx) : Prop := ∀ q, q ≠ r → t.reg q = s.reg q

/-- Every register is unchanged. -/
def RegsKept (s t : State) : Prop := ∀ q, t.reg q = s.reg q

/-- Every byte of memory but the one at `addr` reads as before. -/
def MemoryKeptBut (s t : State) (addr : Byte) : Prop := ∀ a, a ≠ addr → t.memRead a = s.memRead a

/-- Every byte of memory reads as before. -/
def MemoryKept (s t : State) : Prop := ∀ a, t.memRead a = s.memRead a

/-- The flags are unchanged. -/
def FlagsKept (s t : State) : Prop := t.fl = s.fl

/-- The run state and the fault record are unchanged. -/
def StatusKept (s t : State) : Prop := t.runState = s.runState ∧ t.cause = s.cause ∧ t.info = s.info

/-- The output channel is unchanged. -/
def OutputKept (s t : State) : Prop := t.out = s.out

/-- The frame of an instruction that writes one register: every other register, the flags, every byte of memory, the run
state, the fault record and the output are unchanged. The program counter may change. -/
def OnlyRegisterWritten (s t : State) (r : RegIdx) : Prop :=
  RegsKeptBut s t r ∧ FlagsKept s t ∧ MemoryKept s t ∧ StatusKept s t ∧ OutputKept s t

/-- The frame of a branch: nothing but the program counter may change. -/
def OnlyPcWritten (s t : State) : Prop :=
  RegsKept s t ∧ FlagsKept s t ∧ MemoryKept s t ∧ StatusKept s t ∧ OutputKept s t

/-- The frame of PUSH and CALL: nothing but the stack pointer, the byte at `addr` and the program counter may change. -/
def OnlyStackWritten (s t : State) (addr : Byte) : Prop :=
  RegsKeptBut s t Config.spIndex ∧ FlagsKept s t ∧ MemoryKeptBut s t addr ∧ StatusKept s t ∧ OutputKept s t

/-- `t` is `s` with nothing but the memory replaced. -/
def SameButMemory (s t : State) : Prop := t = { s with mem := t.mem }

end Sys2Proof.Machine
end

