-- ==== Sys2Proof/Certificates/Slice0/Obligations.lean ====
section
/-! DEFINITION. The statements for the provers. `D<n>` is a decision of the spec's own (`92_eei_decisions.md`), "log <n>" an
entry of the assumption log: a statement that rests on one says so. -/

open Sys2Proof Sys2Proof.Machine

/-! ### Encoding -/

/-- Decode and encode agree on every instruction and every three bytes: the fetch decodes to `i` exactly when it begins with
the bytes of `i`. So no bit of an encoding is dropped, and the bytes after it are ignored. (`30_encoding.md` sections 1 to 3,
with the opcode values of decision D1, log 1.) -/
def Obligations.DecodeAndEncodeAgree : Prop :=
  ∀ (i : Instr) (f : Fetched), decode f = .ok i ↔ encode i <+: [f.op, f.a, f.b]

/-- Words written out from the table of `30_encoding.md` section 3 decode to the instruction they stand for, one of each
format and family. (Opcode values: D1, log 1.) -/
def Obligations.WordsOfTheTableDecode : Prop :=
  decode ⟨0b00000001#8, 0xFF#8, 0xFF#8⟩ = .ok .hlt ∧
  decode ⟨0b00010001#8, 0x00#8, 0x00#8⟩ = .ok .ret ∧
  decode ⟨0b01000101#8, 0x07#8, 0x00#8⟩ = .ok (.push 0x07#8) ∧
  decode ⟨0b01010101#8, 0x02#8, 0x00#8⟩ = .ok (.jeq 0x02#8) ∧
  decode ⟨0b01101001#8, 0x03#8, 0xFF#8⟩ = .ok (.not 0x03#8) ∧
  decode ⟨0b10000010#8, 0x03#8, 0xC8#8⟩ = .ok (.ldi 0x03#8 0xC8#8) ∧
  decode ⟨0b10100111#8, 0x04#8, 0x05#8⟩ = .ok (.cmp 0x04#8 0x05#8) ∧
  decodeTableWord 24 0x0504A1 = some (.sub 0x04#8 0x05#8)

/-- A byte is an opcode exactly when it is one of the 21 values; the decoder refuses each of the other 235 by name, whatever
bytes follow. (`30_encoding.md` section 3; opcode values: D1, log 1.) -/
def Obligations.ExactlyTwentyOneOpcodesAreKnown : Prop :=
  ∀ f : Fetched,
    decode f = .error (.unknownOpcode f.op) ↔
      f.op ∉ [0x01#8, 0x11#8, 0x45#8, 0x46#8, 0x47#8, 0x50#8, 0x54#8, 0x55#8, 0x56#8, 0x69#8, 0x82#8, 0xA0#8, 0xA1#8,
        0xA2#8, 0xA4#8, 0xA7#8, 0xA8#8, 0xAA#8, 0xAB#8, 0xAC#8, 0xAD#8]

/-- The decoder's two fields are bits 7:6 and bit 4 of the opcode, on every byte (`30_encoding.md` section 1). -/
def Obligations.DecoderFieldsAreBitsOfTheOpcode : Prop :=
  ∀ op : Byte,
    (decodeFields op).operandCount = op.toNat / 64 ∧
    ((decodeFields op).setsPcDirectly = true ↔ op.toNat / 16 % 2 = 1)

/-- R76: a format `Z` instruction ignores both bytes after the opcode, a format `R` instruction the second: whatever an
ignored byte is, the same instruction is decoded and a step runs it, and the step never takes the index fault for it. -/
def Obligations.IgnoredOperandBytesHaveNoEffect : Prop :=
  ∀ (m : Mnemonic) (op a b a' b' : Byte) (s : State), mnemonicOf op = some m →
    (m.format = .z →
      decode ⟨op, a, b⟩ = decode ⟨op, a', b'⟩ ∧
      (s.runState = .running → s.fetch = ⟨op, a, b⟩ →
        step s = exec (withOperands m a' b') s ∧ ∀ t, step s = .next t → t.runState ≠ .fatalError)) ∧
    (m.format = .r →
      decode ⟨op, a, b⟩ = decode ⟨op, a, b'⟩ ∧
      (s.runState = .running → s.fetch = ⟨op, a, b⟩ →
        step s = exec (withOperands m a b') s ∧
          (a.toNat ≤ 7 → ∀ t, step s = .next t → t.runState ≠ .fatalError)))

/-! ### The step -/

/-- A step runs the instruction its three fetched bytes decode to, as it was fetched; nothing is added around the meaning
(the advance is part of it, log 12). (`44_execution_loop.md` section 1.) -/
def Obligations.StepRunsTheDecodedInstruction : Prop :=
  ∀ (s : State) (i : Instr), s.runState = .running → decode s.fetch = .ok i → step s = exec i s

/-- Where the bytes of an instruction stand in memory from `pc` on, the step runs that instruction, whatever stands after
them. (`44_execution_loop.md` section 1; at the top of memory the bytes go on at address 0, decision D8, log 5.) -/
def Obligations.StepRunsTheEncodedInstruction : Prop :=
  ∀ (s : State) (i : Instr), s.runState = .running →
    (∀ k v, (encode i)[k]? = some v → s.memRead (s.pc + BitVec.ofNat 8 k) = v) → step s = exec i s

/-- A byte that is no opcode ends the run in `fatal-error` with that byte in the fault record and changes nothing else, not
even `pc` (decisions D13 and D15, log 8 and 10). (`44_execution_loop.md` section 1.) -/
def Obligations.UnknownOpcodeEndsTheRun : Prop :=
  ∀ s : State, s.runState = .running → mnemonicOf (s.memRead s.pc) = none →
    step s = .next { s with runState := .fatalError, cause := .unknownOpcode, info := s.memRead s.pc }

/-- R159: in `halted` and in `fatal-error` no step is enabled (the model's step stops there with `runOver`), so nothing is
fetched, changed or emitted, and no other state is ever reached. -/
def Obligations.TerminalStatesTakeNoStep : Prop :=
  ∀ s : State, s.runState ≠ .running →
    step s = .fault (.runOver s.runState) ∧ ∀ t, Reaches s t → t = s

/-- While the core is running every step answers a next state: the model has no instruction and no form that stops
(`44_execution_loop.md` section 1, "total"; a register byte above 7 takes the fault of decision D9, log 6). -/
def Obligations.StepIsTotalWhileRunning : Prop :=
  ∀ s : State, s.runState = .running → ∃ t, step s = .next t

/-! ### Reset and the invariant -/

/-- The reset state meets the invariant of the core. (`10_state.md` section 6.) -/
def Obligations.ResetMeetsTheInvariant : Prop := State.reset.Inv

/-- R202, R203: after a load execution starts at address 0, the first byte of the image is the first opcode, and byte `k`
of the image is `M[k]`. -/
def Obligations.LoadedImageIsMemoryAndTheEntryPointIsZero : Prop :=
  ∀ (image : List Byte) (s : State), State.loadImage image = some s →
    s.runState = .running ∧ s.pc = 0x00#8 ∧
    (∀ v, image[0]? = some v → s.fetch.op = v) ∧
    ∀ k v, image[k]? = some v → k < 256 ∧ s.memRead (BitVec.ofNat 8 k) = v

/-- Reset with an image of at most 256 bytes gives the state of `70_reset_and_hazards.md` section 1 and the invariant;
a longer image gives none (D17, log 15). The zeros of r0 to r6, the flags and memory beyond the image are decisions D5, D6
and D7 (log 2, 3, 4). -/
def Obligations.LoadedImageGivesTheResetState : Prop :=
  ∀ image : List Byte,
    (256 < image.length → State.loadImage image = none) ∧
    (image.length ≤ 256 → ∃ s, State.loadImage image = some s ∧ s.Inv ∧
      (∀ r : RegIdx, s.reg r = if r = 7 then 0xF4#8 else 0x00#8) ∧
      s.pc = 0x00#8 ∧ s.fl = ⟨false, false, false⟩ ∧
      (∀ a : Byte, image.length ≤ a.toNat → s.memRead a = 0x00#8) ∧
      s.runState = .running ∧ s.cause = .none ∧ s.info = 0x00#8 ∧ s.out = [])

/-- Every step keeps the invariant, from every state that meets it: memory stays canonical, at most one flag is set, and the
run state and the fault record stay a row of the table of `10_state.md` section 5 (its record: D15, log 10). -/
def Obligations.EveryStepKeepsTheInvariant : Prop :=
  ∀ s t : State, s.Inv → step s = .next t → t.Inv

/-- Two canonical memories that read alike at every address are the same data (a property of the model's representation
of `20_memory.md` section 1). -/
def Obligations.CanonicalMemoriesThatReadAlikeAreEqual : Prop :=
  ∀ m n : Memory, m.wf → n.wf → (∀ a : Byte, m.read a = n.read a) → m = n

/-! ### Rules of the whole machine -/

/-- R32: CMP is the only instruction that writes FL, and a faulting one does not; it writes all three bits; no instruction
reads FL.L or FL.G, and only JEQ and JNE read FL.E (a step from the same state with other flags does the same but for the
flags it was given). -/
def Obligations.OnlyCmpWritesFlagsAndOnlyJeqJneReadThem : Prop :=
  (∀ s t : State, step s = .next t → t.fl ≠ s.fl →
    t.runState = .running ∧ ∃ a b, decode s.fetch = .ok (.cmp a b)) ∧
  (∀ (s : State) (f : Flags) (a b : Byte) (ra rb : RegIdx), namesReg a ra → namesReg b rb →
    ∃ t t', exec (.cmp a b) s = .next t ∧ exec (.cmp a b) { s with fl := f } = .next t' ∧ t'.fl = t.fl) ∧
  (∀ (s t : State) (f : Flags), step s = .next t →
    (f.E = s.fl.E ∨ ∀ a, decode s.fetch ≠ .ok (.jeq a) ∧ decode s.fetch ≠ .ok (.jne a)) →
    ∃ t', step { s with fl := f } = .next t' ∧ { t' with fl := t.fl } = t)

/-- Only PUSH and CALL write memory, one byte, at the decremented stack pointer (`20_memory.md` section 1). -/
def Obligations.OnlyPushAndCallWriteMemory : Prop :=
  ∀ s t : State, step s = .next t → ∀ a : Byte, t.memRead a ≠ s.memRead a →
    a = s.decSp.sp ∧ ∃ v, decode s.fetch = .ok (.push v) ∨ decode s.fetch = .ok (.call v)

/-- What a step does depends on memory only through the three fetched bytes and, for POP and RET, the byte at the stack
pointer: from a state that differs in other bytes it does the same, and those bytes are carried along (`20_memory.md`
sections 1, 2 and 4; the fetch wraps at the top of memory, decision D8, log 5). -/
def Obligations.StepDependsOnlyOnTheBytesItReads : Prop :=
  ∀ s s' t : State, SameButMemory s s' → s'.fetch = s.fetch →
    (decode s.fetch = .ok .ret ∨ (∃ v, decode s.fetch = .ok (.pop v)) → s'.memRead s.sp = s.memRead s.sp) →
    step s = .next t →
    ∃ t', step s' = .next t' ∧ SameButMemory t t' ∧
      ∀ a : Byte, t'.memRead a = t.memRead a ∨ (t.memRead a = s.memRead a ∧ t'.memRead a = s'.memRead a)

/-- R41: the output channel is empty at reset, grows by one byte, the register's, per executed PRN, oldest first, and is never
shortened or read by the core (a step from the same state with another output does the same). -/
def Obligations.OutputGrowsByOneBytePerPrnAndIsNeverRead : Prop :=
  State.reset.out = [] ∧
  (∀ (image : List Byte) (s : State), State.loadImage image = some s → s.out = []) ∧
  (∀ s t : State, step s = .next t →
    (∃ a r, decode s.fetch = .ok (.prn a) ∧ namesReg a r ∧ t.out = s.out ++ [s.reg r]) ∨
    (t.out = s.out ∧ ∀ a, decode s.fetch = .ok (.prn a) → 7 < a.toNat)) ∧
  (∀ (s t : State) (o : List Byte), step s = .next t →
    ∃ v, t.out = s.out ++ v ∧ step { s with out := o } = .next { t with out := o ++ v })

/-- A step that leaves `running` changes nothing but the run state and the fault record: faults, and HLT, are precise
(`60_exceptions.md` section 4; that `pc` stays is decisions D12 and D13, log 8). -/
def Obligations.LeavingRunningChangesOnlyTheStatus : Prop :=
  ∀ s t : State, step s = .next t → t.runState ≠ .running →
    t = { s with runState := t.runState, cause := t.cause, info := t.info }

/-- Exactly which steps leave `running`, and into which state: HLT and MOD with a zero divisor into `halted`; an unknown
opcode and a register operand byte above 7 (decision D9, log 6) into `fatal-error`. A step that stays running leaves the
fault record alone. (`10_state.md` section 5.) -/
def Obligations.ExactlyTheseStepsEndTheRun : Prop :=
  ∀ s t : State, step s = .next t →
    (t.runState = .halted ↔
      decode s.fetch = .ok .hlt ∨
      ∃ a b ra rb, decode s.fetch = .ok (.mod a b) ∧ namesReg a ra ∧ namesReg b rb ∧ s.reg rb = 0x00#8) ∧
    (t.runState = .fatalError ↔
      mnemonicOf s.fetch.op = none ∨ ∃ i, decode s.fetch = .ok i ∧ i.wf = false) ∧
    (t.runState = .running → t.cause = s.cause ∧ t.info = s.info)

/-- The advance follows the opcode's two fields and nothing else: an instruction that goes on and whose opcode has bit 4
clear leaves `pc` after its operand bytes, counted by bits 7:6 (`44_execution_loop.md` section 1; modulo 256 is decision D8,
log 5). -/
def Obligations.AdvanceFollowsTheOpcodeFields : Prop :=
  ∀ (i : Instr) (s t : State) (op : Byte), (encode i)[0]? = some op → s.runState = .running →
    exec i s = .next t → t.runState = .running → op.toNat / 16 % 2 = 0 →
    t.pc.toNat = (s.pc.toNat + 1 + op.toNat / 64) % 256

/-! ### Faults and HLT -/

/-- Operand byte `a` above 7 in any format that has a register operand: InvalidRegisterIndex with that byte, before `b` and
before anything else is looked at, and nothing else changes (decisions D9, D15 and D22, log 6 and 10). (`60_exceptions.md`
sections 2 and 4.) -/
def Obligations.FirstRegisterByteAboveSevenFaults : Prop :=
  ∀ (m : Mnemonic) (a b : Byte) (s : State), m.format ≠ .z → 7 < a.toNat →
    exec (withOperands m a b) s =
      .next { s with runState := .fatalError, cause := .invalidRegisterIndex, info := a }

/-- Operand byte `b` above 7 in a format with two register operands, `a` being legal: InvalidRegisterIndex with `b`, before
the zero-divisor test of MOD, and nothing else changes (decisions D9 and D15, log 6 and 10). (`60_exceptions.md` sections 2
and 4.) -/
def Obligations.SecondRegisterByteAboveSevenFaults : Prop :=
  ∀ (m : Mnemonic) (a b : Byte) (s : State), m.format = .rr → a.toNat ≤ 7 → 7 < b.toNat →
    exec (withOperands m a b) s =
      .next { s with runState := .fatalError, cause := .invalidRegisterIndex, info := b }

/-- MOD by zero halts with DivisionByZero: the register keeps its value, nothing is written to memory, `pc` stays (decisions
D12 and D15, log 8 and 10). (`40_alu.md` section 2.) -/
def Obligations.ModByZeroHalts : Prop :=
  ∀ (s : State) (a b : Byte) (ra rb : RegIdx), namesReg a ra → namesReg b rb → s.reg rb = 0x00#8 →
    exec (.mod a b) s = .next { s with runState := .halted, cause := .divisionByZero, info := 0x00#8 }

/-- HLT ends the run normally: `halted` with cause Hlt, and nothing else changes, not even `pc` (decisions D13 and D15, log 8
and 10). (`43_direct.md`, HLT.) -/
def Obligations.HltHaltsAndChangesNothingElse : Prop :=
  ∀ s : State, exec .hlt s = .next { s with runState := .halted, cause := .hlt, info := 0x00#8 }

/-- In a state that meets the invariant the host's exit code is none while running, 0 after a normal end, 1 after a fatal error,
and after MOD by zero the constant the spec leaves open (D20, log 17), of which nothing is said (`60_exceptions.md` section 5;
that a register byte above 7 exits as an unknown opcode does is decision D9, log 6). -/
def Obligations.ExitCodeFollowsTheEndOfTheRun : Prop :=
  ∀ s : State, s.Inv →
    (s.runState = .running → s.exitCode = none) ∧
    (s.endedNormally → s.exitCode = some 0) ∧
    (s.runState = .fatalError → s.exitCode = some 1) ∧
    (s.runState = .halted → ¬s.endedNormally → s.exitCode = some Config.divZeroExitCode)

/-! ### ALU instructions: the result, the advance and the frame. The advance is modulo 256 by decision D8 (log 5). -/

/-- ADD completes: `x[ra]` becomes the sum modulo 256 (`40_alu.md` section 2). -/
def Obligations.AddWritesTheSumModulo256 : Prop :=
  ∀ (s : State) (a b : Byte) (ra rb : RegIdx), namesReg a ra → namesReg b rb →
    ∃ t, exec (.add a b) s = .next t ∧
      (t.reg ra).toNat = ((s.reg ra).toNat + (s.reg rb).toNat) % 256 ∧
      t.pc.toNat = (s.pc.toNat + 3) % 256 ∧ OnlyRegisterWritten s t ra

/-- SUB completes: `x[ra]` becomes the difference modulo 256 (`40_alu.md` section 2). -/
def Obligations.SubWritesTheDifferenceModulo256 : Prop :=
  ∀ (s : State) (a b : Byte) (ra rb : RegIdx), namesReg a ra → namesReg b rb →
    ∃ t, exec (.sub a b) s = .next t ∧
      (t.reg ra).toNat = ((s.reg ra).toNat + 256 - (s.reg rb).toNat) % 256 ∧
      t.pc.toNat = (s.pc.toNat + 3) % 256 ∧ OnlyRegisterWritten s t ra

/-- MUL completes: `x[ra]` becomes the low 8 bits of the product (`40_alu.md` section 2). -/
def Obligations.MulWritesTheProductModulo256 : Prop :=
  ∀ (s : State) (a b : Byte) (ra rb : RegIdx), namesReg a ra → namesReg b rb →
    ∃ t, exec (.mul a b) s = .next t ∧
      (t.reg ra).toNat = ((s.reg ra).toNat * (s.reg rb).toNat) % 256 ∧
      t.pc.toNat = (s.pc.toNat + 3) % 256 ∧ OnlyRegisterWritten s t ra

/-- MOD by a register that is not 0 completes: `x[ra]` becomes the unsigned remainder, the one number below the divisor that
differs from the dividend by a multiple of it (`40_alu.md` sections 2 and 6; unsigned is decision D11, log 19). -/
def Obligations.ModWritesTheUnsignedRemainder : Prop :=
  ∀ (s : State) (a b : Byte) (ra rb : RegIdx), namesReg a ra → namesReg b rb → s.reg rb ≠ 0x00#8 →
    ∃ t, exec (.mod a b) s = .next t ∧
      (t.reg ra).toNat < (s.reg rb).toNat ∧
      (∃ q : Nat, (s.reg ra).toNat = q * (s.reg rb).toNat + (t.reg ra).toNat) ∧
      t.pc.toNat = (s.pc.toNat + 3) % 256 ∧ OnlyRegisterWritten s t ra

/-- AND, OR and XOR complete: each of the 8 bits of `x[ra]` becomes that function of the two operands' bits (`40_alu.md`
section 3). -/
def Obligations.AndOrXorActOnEachBit : Prop :=
  ∀ (s : State) (a b : Byte) (ra rb : RegIdx), namesReg a ra → namesReg b rb →
    (∃ t, exec (.and a b) s = .next t ∧
      (∀ k, k < 8 → (t.reg ra).getLsbD k = ((s.reg ra).getLsbD k && (s.reg rb).getLsbD k)) ∧
      t.pc.toNat = (s.pc.toNat + 3) % 256 ∧ OnlyRegisterWritten s t ra) ∧
    (∃ t, exec (.or a b) s = .next t ∧
      (∀ k, k < 8 → (t.reg ra).getLsbD k = ((s.reg ra).getLsbD k || (s.reg rb).getLsbD k)) ∧
      t.pc.toNat = (s.pc.toNat + 3) % 256 ∧ OnlyRegisterWritten s t ra) ∧
    (∃ t, exec (.xor a b) s = .next t ∧
      (∀ k, k < 8 → (t.reg ra).getLsbD k = ((s.reg ra).getLsbD k != (s.reg rb).getLsbD k)) ∧
      t.pc.toNat = (s.pc.toNat + 3) % 256 ∧ OnlyRegisterWritten s t ra)

/-- NOT completes: `x[ra]` becomes 255 minus itself, and the instruction is two bytes long (`40_alu.md` section 3; its length
is decision D3, log 1). -/
def Obligations.NotWritesTheComplement : Prop :=
  ∀ (s : State) (a : Byte) (ra : RegIdx), namesReg a ra →
    ∃ t, exec (.not a) s = .next t ∧ (t.reg ra).toNat = 255 - (s.reg ra).toNat ∧
      t.pc.toNat = (s.pc.toNat + 2) % 256 ∧ OnlyRegisterWritten s t ra

/-- SHL completes: `x[ra] * 2^n` modulo 256, `n` the whole byte `x[rb]` (`40_alu.md` section 4; a count of 8 or more is decision
D10, log 7). -/
def Obligations.ShlShiftsByTheWholeByte : Prop :=
  ∀ (s : State) (a b : Byte) (ra rb : RegIdx), namesReg a ra → namesReg b rb →
    ∃ t, exec (.shl a b) s = .next t ∧
      (t.reg ra).toNat = ((s.reg ra).toNat * 2 ^ (s.reg rb).toNat) % 256 ∧
      t.pc.toNat = (s.pc.toNat + 3) % 256 ∧ OnlyRegisterWritten s t ra

/-- SHR completes: `x[ra]` divided by `2^n`, rounded down, `n` the whole byte `x[rb]`: a logical shift (`40_alu.md` section 4; a
count of 8 or more is decision D10, log 7; unsigned is D11, log 19). -/
def Obligations.ShrShiftsLogicallyByTheWholeByte : Prop :=
  ∀ (s : State) (a b : Byte) (ra rb : RegIdx), namesReg a ra → namesReg b rb →
    ∃ t, exec (.shr a b) s = .next t ∧
      (t.reg ra).toNat = (s.reg ra).toNat / 2 ^ (s.reg rb).toNat ∧
      t.pc.toNat = (s.pc.toNat + 3) % 256 ∧ OnlyRegisterWritten s t ra

/-- CMP completes: it sets Equal, Less or Greater by the unsigned order of the two registers, clears the other two, and writes
nothing else but `pc` (`40_alu.md` section 5; unsigned is decision D11, log 19). -/
def Obligations.CmpSetsExactlyTheFlagOfTheOrder : Prop :=
  ∀ (s : State) (a b : Byte) (ra rb : RegIdx), namesReg a ra → namesReg b rb →
    ∃ t, exec (.cmp a b) s = .next t ∧
      (t.fl.E = true ↔ (s.reg ra).toNat = (s.reg rb).toNat) ∧
      (t.fl.L = true ↔ (s.reg ra).toNat < (s.reg rb).toNat) ∧
      (t.fl.G = true ↔ (s.reg rb).toNat < (s.reg ra).toNat) ∧
      t.pc.toNat = (s.pc.toNat + 3) % 256 ∧
      RegsKept s t ∧ MemoryKept s t ∧ StatusKept s t ∧ OutputKept s t

/-- After a CMP in a running core the trace tap shows one line: `pc`, the flags as the byte 0x01 if the registers were equal, 0x04
if the first was less, else 0x02, the three bytes at `pc` (modulo 256: decision D8, log 5), and the eight registers as they were
before the CMP (`60_exceptions.md` section 5, `10_state.md` section 4). The packing of the flags and the sampling point are decisions
D4 and D21 (log 18), the unsigned order is decision D11 (log 19). -/
def Obligations.TraceShowsTheFlagsOfACompare : Prop :=
  ∀ (s : State) (a b : Byte) (ra rb : RegIdx), namesReg a ra → namesReg b rb → s.runState = .running →
    ∃ t, exec (.cmp a b) s = .next t ∧
      t.trace = some {
        pc := t.pc
        fl :=
          if (s.reg ra).toNat = (s.reg rb).toNat then 0x01#8
          else if (s.reg ra).toNat < (s.reg rb).toNat then 0x04#8
          else 0x02#8
        op := s.memRead t.pc
        a := s.memRead (t.pc + 1#8)
        b := s.memRead (t.pc + 2#8)
        x := s.regs }

/-! ### Stack and subroutine instructions. The advance and the return address are modulo 256 by decision D8 (log 5); register
7 as the explicit operand is decision D14 (log 9). -/

/-- PUSH completes: `SP` is decremented, and the byte there becomes the register, which for register 7 is the decremented
pointer; no other register and no other byte changes (`41_stack_call.md` sections 2 and 4). -/
def Obligations.PushStoresBelowTheStackPointer : Prop :=
  ∀ (s : State) (a : Byte) (ra : RegIdx), namesReg a ra →
    ∃ t, exec (.push a) s = .next t ∧
      t.sp.toNat = (s.sp.toNat + 255) % 256 ∧
      t.memRead s.decSp.sp = (if ra = 7 then s.sp - 1#8 else s.reg ra) ∧
      t.pc.toNat = (s.pc.toNat + 2) % 256 ∧ OnlyStackWritten s t s.decSp.sp

/-- POP completes: the register becomes the byte at `SP`, then `SP` is incremented; for register 7 the pointer ends as the
popped byte plus one; no byte of memory changes (`41_stack_call.md` sections 2 and 4). -/
def Obligations.PopLoadsTheByteAtTheStackPointer : Prop :=
  ∀ (s : State) (a : Byte) (ra : RegIdx), namesReg a ra →
    ∃ t, exec (.pop a) s = .next t ∧
      (ra ≠ 7 → t.reg ra = s.memRead s.sp ∧ t.sp.toNat = (s.sp.toNat + 1) % 256) ∧
      (ra = 7 → t.sp.toNat = ((s.memRead s.sp).toNat + 1) % 256) ∧
      (∀ q : RegIdx, q ≠ ra → q ≠ 7 → t.reg q = s.reg q) ∧
      t.pc.toNat = (s.pc.toNat + 2) % 256 ∧
      FlagsKept s t ∧ MemoryKept s t ∧ StatusKept s t ∧ OutputKept s t

/-- CALL completes: `SP` is decremented, the byte there becomes the address after the two-byte CALL, and control goes to the
register, which for register 7 is the decremented pointer (`41_stack_call.md` sections 3 and 4). -/
def Obligations.CallPushesTheReturnAddressAndJumps : Prop :=
  ∀ (s : State) (a : Byte) (ra : RegIdx), namesReg a ra →
    ∃ t, exec (.call a) s = .next t ∧
      t.sp.toNat = (s.sp.toNat + 255) % 256 ∧
      (t.memRead s.decSp.sp).toNat = (s.pc.toNat + 2) % 256 ∧
      t.pc = (if ra = 7 then s.sp - 1#8 else s.reg ra) ∧ OnlyStackWritten s t s.decSp.sp

/-- RET completes from every state: control goes to the byte at `SP`, `SP` is incremented, nothing else changes
(`41_stack_call.md` section 3). -/
def Obligations.RetJumpsToTheByteAtTheStackPointer : Prop :=
  ∀ s : State,
    ∃ t, exec .ret s = .next t ∧
      t.pc = s.memRead s.sp ∧ t.sp.toNat = (s.sp.toNat + 1) % 256 ∧
      RegsKeptBut s t 7 ∧ FlagsKept s t ∧ MemoryKept s t ∧ StatusKept s t ∧ OutputKept s t

/-- R125: stack-pointer arithmetic is modulo 256 in both directions, popping more than was pushed reads whatever is there, and
none of it raises a fault or changes the run state. -/
def Obligations.StackPointerWrapsWithoutAnyFault : Prop :=
  ∀ (s : State) (a : Byte) (ra : RegIdx), namesReg a ra →
    (∃ t, exec (.push a) s = .next t ∧ t.sp.toNat = (s.sp.toNat + 255) % 256 ∧ StatusKept s t) ∧
    (∃ t, exec (.call a) s = .next t ∧ t.sp.toNat = (s.sp.toNat + 255) % 256 ∧ StatusKept s t) ∧
    (∃ t, exec (.pop a) s = .next t ∧ StatusKept s t ∧
      (ra ≠ Config.spIndex → t.sp.toNat = (s.sp.toNat + 1) % 256 ∧ t.reg ra = s.memRead s.sp)) ∧
    (∃ t, exec .ret s = .next t ∧ t.sp.toNat = (s.sp.toNat + 1) % 256 ∧ t.pc = s.memRead s.sp ∧ StatusKept s t)

/-- PUSH then POP on the same register restores every register, the stack pointer included, for every register, 7 too
(`41_stack_call.md` section 2; for register 7 decision D14, log 9). -/
def Obligations.PushThenPopRestoresTheRegisters : Prop :=
  ∀ (s : State) (a : Byte) (ra : RegIdx), namesReg a ra →
    ∃ t u, exec (.push a) s = .next t ∧ exec (.pop a) t = .next u ∧
      u.regs = s.regs ∧ u.pc.toNat = (s.pc.toNat + 4) % 256 ∧
      FlagsKept s u ∧ MemoryKeptBut s u s.decSp.sp ∧ StatusKept s u ∧ OutputKept s u

/-- A RET that finds the stack pointer and the stacked byte as a CALL left them resumes after the two-byte CALL and restores the
stack pointer, whatever the subroutine did to the rest of the state (`41_stack_call.md` section 3). -/
def Obligations.ReturnResumesAfterTheCall : Prop :=
  ∀ (s t t' : State) (a : Byte) (ra : RegIdx), namesReg a ra → exec (.call a) s = .next t →
    t'.sp = t.sp → t'.memRead t.sp = t.memRead t.sp →
    ∃ u, exec .ret t' = .next u ∧ u.pc.toNat = (s.pc.toNat + 2) % 256 ∧ u.sp = s.sp

/-- A byte stored by PUSH or CALL is what the next fetch of that address gives, as opcode or as operand, and every other address
is fetched as before; the storing instruction itself ran as it was fetched (`70_reset_and_hazards.md` section 3, `20_memory.md`
section 4; for register 7 decision D14, log 9). -/
def Obligations.StoredByteIsSeenByTheNextFetch : Prop :=
  ∀ (s t : State) (a : Byte) (ra : RegIdx) (p : Byte), namesReg a ra → step s = .next t →
    (decode s.fetch = .ok (.push a) →
      ({ t with pc := p }).fetch.op =
        if p = s.decSp.sp then s.decSp.reg ra else ({ s with pc := p }).fetch.op) ∧
    (decode s.fetch = .ok (.call a) →
      ({ t with pc := p }).fetch.op =
        if p = s.decSp.sp then s.pcPlus2 else ({ s with pc := p }).fetch.op) ∧
    ({ t with pc := p }).fetch.a = ({ t with pc := p + 1#8 }).fetch.op ∧
    ({ t with pc := p }).fetch.b = ({ t with pc := p + 2#8 }).fetch.op

/-! ### Branches -/

/-- JMP completes: `pc` becomes the register, any byte, and nothing else changes (`42_branch.md`, JMP). -/
def Obligations.JmpSetsPcToTheRegister : Prop :=
  ∀ (s : State) (a : Byte) (ra : RegIdx), namesReg a ra →
    ∃ t, exec (.jmp a) s = .next t ∧ t.pc = s.reg ra ∧ OnlyPcWritten s t

/-- JEQ and JNE complete: JEQ is taken when Equal is set, JNE when it is clear; not taken, each goes on after its two bytes
(modulo 256: decision D8, log 5); nothing but `pc` changes (`42_branch.md`, JEQ and JNE). -/
def Obligations.JeqAndJneFollowTheEqualFlag : Prop :=
  ∀ (s : State) (a : Byte) (ra : RegIdx), namesReg a ra →
    (∃ t, exec (.jeq a) s = .next t ∧ OnlyPcWritten s t ∧
      (s.fl.E = true → t.pc = s.reg ra) ∧
      (s.fl.E = false → t.pc.toNat = (s.pc.toNat + 2) % 256)) ∧
    (∃ t, exec (.jne a) s = .next t ∧ OnlyPcWritten s t ∧
      (s.fl.E = false → t.pc = s.reg ra) ∧
      (s.fl.E = true → t.pc.toNat = (s.pc.toNat + 2) % 256))

/-! ### Direct instructions -/

/-- LDI completes: the register becomes the immediate as it stands, any byte (`43_direct.md`, LDI; the advance is modulo 256 by
decision D8, log 5). -/
def Obligations.LdiWritesTheImmediate : Prop :=
  ∀ (s : State) (a imm : Byte) (ra : RegIdx), namesReg a ra →
    ∃ t, exec (.ldi a imm) s = .next t ∧ t.reg ra = imm ∧
      t.pc.toNat = (s.pc.toNat + 3) % 256 ∧ OnlyRegisterWritten s t ra

/-- PRN completes: the register's byte is appended to the output and nothing else but `pc` changes (`43_direct.md`, PRN; the
advance is modulo 256 by decision D8, log 5). -/
def Obligations.PrnAppendsTheRegisterToTheOutput : Prop :=
  ∀ (s : State) (a : Byte) (ra : RegIdx), namesReg a ra →
    ∃ t, exec (.prn a) s = .next t ∧ t.out = s.out ++ [s.reg ra] ∧
      t.pc.toNat = (s.pc.toNat + 2) % 256 ∧
      RegsKept s t ∧ FlagsKept s t ∧ MemoryKept s t ∧ StatusKept s t

/-- LDI then PRN on the same register, register 7 too, prints the immediate exactly (`43_direct.md`, LDI). -/
def Obligations.LdiThenPrnPrintsTheImmediate : Prop :=
  ∀ (s : State) (a imm : Byte) (ra : RegIdx), namesReg a ra →
    ∃ t u, exec (.ldi a imm) s = .next t ∧ exec (.prn a) t = .next u ∧ u.out = s.out ++ [imm]
end

