-- ==== Sys2Proof/Laws/Decode.lean ====
section
/-! SUPPORT. The opcode table is well formed and has an inverse; what the decoder and its two fields answer. -/

namespace Sys2Proof

/-- The table of `30_encoding.md` R78 meets the constraints of R79. -/
theorem opcode_tableWf : tableWf opcode = true := by decide

@[simp] theorem mnemonicOf_opcode (m : Mnemonic) : mnemonicOf (opcode m) = some m := by
  cases m <;> rfl

theorem mnemonicOf_eq_some {op : Byte} {m : Mnemonic} : mnemonicOf op = some m ↔ op = opcode m := by
  constructor
  · intro h
    have := List.find?_some h
    exact (beq_iff_eq.mp this).symm
  · rintro rfl
    exact mnemonicOf_opcode m

@[simp] theorem decodeFields_opcode_setsPc (m : Mnemonic) :
    (decodeFields (opcode m)).setsPcDirectly = m.setsPc := by
  cases m <;> rfl

@[simp] theorem decodeFields_opcode_operandCount (m : Mnemonic) :
    (decodeFields (opcode m)).operandCount = m.format.operandCount := by
  cases m <;> rfl

@[simp] theorem withOperands_mnemonic (m : Mnemonic) (a b : Byte) : (withOperands m a b).mnemonic = m := by
  cases m <;> rfl

/-- What decoding answers: the opcode byte is the instruction's, and the operand bytes are put in by its format. -/
theorem decode_eq_ok {f : Fetched} {i : Instr} :
    decode f = .ok i ↔ f.op = opcode i.mnemonic ∧ i = withOperands i.mnemonic f.a f.b := by
  unfold decode
  cases h : mnemonicOf f.op with
  | none =>
    simp only [reduceCtorEq, false_iff, not_and]
    intro h'
    rw [h', mnemonicOf_opcode] at h
    cases h
  | some m =>
    have hop := mnemonicOf_eq_some.mp h
    constructor
    · intro e
      cases e
      simp [hop]
    · rintro ⟨h1, h2⟩
      have hm : i.mnemonic = m := by
        rw [h1, mnemonicOf_opcode] at h
        exact Option.some.inj h
      rw [hm] at h2
      rw [h2]

/-- When decoding refuses: the opcode byte is no opcode. -/
theorem decode_eq_error {f : Fetched} {e : DecodeError} :
    decode f = .error e ↔ mnemonicOf f.op = none ∧ e = .unknownOpcode f.op := by
  unfold decode
  cases h : mnemonicOf f.op with
  | none => simp [eq_comm]
  | some m => simp

end Sys2Proof
end

