-- ==== Sys2Proof/Laws/Memory.lean ====
section
/-! SUPPORT. The laws of memory: a write is read back and leaves every other cell alone, and every memory operation keeps
the canonical form (`20_memory.md` R51). -/

namespace Sys2Proof.Machine

@[simp] theorem Memory.find_nil (k : Nat) : Memory.find [] k = none := rfl

@[simp] theorem Memory.find_cons (c : Host.Cell) (m : Memory) (k : Nat) :
    Memory.find (c :: m) k = if c.1 = k then some c.2 else Memory.find m k := rfl

/-- Listing a cell that no other entry lists. -/
theorem Memory.find_insertCell_same (c : Host.Cell) (m : Memory) (h : ∀ d ∈ m, d.1 ≠ c.1) :
    (Memory.insertCell c m).find c.1 = some c.2 := by
  induction m with
  | nil => simp [Memory.insertCell]
  | cons d rest ih =>
    have hd : d.1 ≠ c.1 := h d (by simp)
    have hrest : ∀ e ∈ rest, e.1 ≠ c.1 := fun e he => h e (by simp [he])
    unfold Memory.insertCell
    split
    · simp
    · simp [hd, ih hrest]

theorem Memory.find_insertCell_other (c : Host.Cell) (m : Memory) (k : Nat) (h : c.1 ≠ k) :
    (Memory.insertCell c m).find k = m.find k := by
  induction m with
  | nil => simp [Memory.insertCell, h]
  | cons d rest ih =>
    unfold Memory.insertCell
    split
    · simp [h]
    · simp [ih]

theorem Memory.find_filter_other (m : Memory) (a k : Nat) (h : a ≠ k) :
    Memory.find (m.filter (fun c => c.1 != a)) k = m.find k := by
  induction m with
  | nil => rfl
  | cons d rest ih =>
    by_cases hd : d.1 = a
    · have hk : d.1 ≠ k := hd ▸ h
      simp [hd, ih, h]
    · simp [hd, ih]

theorem Memory.find_filter_same (m : Memory) (a : Nat) :
    Memory.find (m.filter (fun c => c.1 != a)) a = none := by
  induction m with
  | nil => rfl
  | cons d rest ih =>
    by_cases hd : d.1 = a
    · simp [hd, ih]
    · simp [hd, ih]

/-- A cell reads as what was last written to it, in any list. -/
@[simp] theorem Memory.read_write_same (m : Memory) (a v : Byte) : (m.write a v).read a = v := by
  unfold Memory.write Memory.read
  by_cases hv : v = Memory.unlisted
  · simp [hv, Memory.find_filter_same]
  · have := Memory.find_insertCell_same (a.toNat, v) (m.filter (fun c => c.1 != a.toNat)) (by simp)
    simp only [hv, if_false]
    simp [this]

/-- A write leaves every other cell alone. -/
theorem Memory.read_write_other (m : Memory) (a b v : Byte) (h : b ≠ a) : (m.write a v).read b = m.read b := by
  have hn : a.toNat ≠ b.toNat := fun e => h (BitVec.eq_of_toNat_eq e.symm)
  unfold Memory.write Memory.read
  by_cases hv : v = Memory.unlisted
  · simp [hv, Memory.find_filter_other m _ _ hn]
  · simp [hv, Memory.find_insertCell_other (a.toNat, v) _ _ hn, Memory.find_filter_other m _ _ hn]

/-- Reading after a write, in one equation. -/
theorem Memory.read_write (m : Memory) (a b v : Byte) :
    (m.write a v).read b = if b = a then v else m.read b := by
  split
  · next h => rw [h, Memory.read_write_same]
  · next h => exact Memory.read_write_other m a b v h

theorem Memory.mem_insertCell (c e : Host.Cell) (m : Memory) : e ∈ Memory.insertCell c m ↔ e = c ∨ e ∈ m := by
  induction m with
  | nil => simp [Memory.insertCell]
  | cons d rest ih =>
    unfold Memory.insertCell
    split
    · simp
    · simp [ih]; tauto

theorem Memory.pairwise_insertCell (c : Host.Cell) (m : Memory) (hm : m.Pairwise (fun p q => p.1 < q.1))
    (hc : ∀ d ∈ m, d.1 ≠ c.1) : (Memory.insertCell c m).Pairwise (fun p q => p.1 < q.1) := by
  induction m with
  | nil => simp [Memory.insertCell]
  | cons d rest ih =>
    have hd : d.1 ≠ c.1 := hc d (by simp)
    obtain ⟨hdrest, hrest⟩ := List.pairwise_cons.mp hm
    unfold Memory.insertCell
    split
    · next hlt =>
      refine List.pairwise_cons.mpr ⟨?_, hm⟩
      intro e he
      rcases List.mem_cons.mp he with rfl | he
      · exact hlt
      · exact lt_trans hlt (hdrest e he)
    · next hlt =>
      refine List.pairwise_cons.mpr ⟨?_, ih hrest (fun e he => hc e (by simp [he]))⟩
      intro e he
      rcases (Memory.mem_insertCell c e rest).mp he with rfl | he
      · omega
      · exact hdrest e he

/-- A write keeps the canonical form. -/
theorem Memory.write_wf (m : Memory) (a v : Byte) (h : m.wf) : (m.write a v).wf := by
  obtain ⟨hp, hc⟩ := h
  have hpf : (m.filter (fun c => c.1 != a.toNat)).Pairwise (fun p q => p.1 < q.1) := hp.filter _
  have hcf : ∀ c ∈ m.filter (fun c => c.1 != a.toNat), c.1 < Config.memSize ∧ c.2 ≠ Memory.unlisted :=
    fun c hmem => hc c (List.mem_of_mem_filter hmem)
  unfold Memory.write
  by_cases hv : v = Memory.unlisted
  · simp only [hv, if_true]; exact ⟨hpf, hcf⟩
  · simp only [hv, if_false]
    refine ⟨Memory.pairwise_insertCell _ _ hpf (by simp), ?_⟩
    intro c hmem
    rcases (Memory.mem_insertCell _ c _).mp hmem with rfl | hmem
    · exact ⟨a.isLt, hv⟩
    · exact hcf c hmem

/-- A listed cell of a canonical memory reads as its byte. -/
theorem Memory.read_of_mem (m : Memory) (h : m.wf) (c : Host.Cell) (hc : c ∈ m) :
    m.read (BitVec.ofNat 8 c.1) = c.2 := by
  obtain ⟨hp, hb⟩ := h
  have hlt : c.1 < 256 := (hb c hc).1
  have key : m.find c.1 = some c.2 := by
    induction m with
    | nil => simp at hc
    | cons d rest ih =>
      obtain ⟨hd, hrest⟩ := List.pairwise_cons.mp hp
      rcases List.mem_cons.mp hc with rfl | hc'
      · simp
      · have : d.1 ≠ c.1 := Nat.ne_of_lt (hd c hc')
        simp [this, ih hc' hrest (fun e he => hb e (List.mem_cons_of_mem d he))]
  simp [Memory.read, Nat.mod_eq_of_lt hlt, key]

theorem Memory.ofImageAt_find (image : List Byte) (k j : Nat) :
    ((Memory.ofImageAt k image).find j).getD Memory.unlisted =
      if j < k then Memory.unlisted else image.getD (j - k) Memory.unlisted := by
  induction image generalizing k with
  | nil => simp [Memory.ofImageAt]
  | cons v rest ih =>
    unfold Memory.ofImageAt
    rcases Nat.lt_trichotomy j k with hlt | rfl | hgt
    · have h1 : j < k + 1 := by omega
      have h2 : k ≠ j := by omega
      split <;> simp [ih, h1, h2]
    · split
      · next hv => simp [ih, hv]
      · simp
    · have h1 : ¬ j < k + 1 := by omega
      have h2 : ¬ j < k := by omega
      have h3 : k ≠ j := by omega
      have h4 : j - k = (j - (k + 1)) + 1 := by omega
      split
      · simp [ih, h1, h4]
      · simp [ih, h1, h3, h4]

/-- The memory of an image reads as the image, and as `Memory.unlisted` beyond it. -/
theorem Memory.read_ofImage (image : List Byte) (a : Byte) :
    (Memory.ofImageAt 0 image).read a = image.getD a.toNat Memory.unlisted := by
  simpa [Memory.read] using Memory.ofImageAt_find image 0 a.toNat

theorem Memory.ofImageAt_mem (image : List Byte) (k : Nat) (c : Host.Cell) (h : c ∈ Memory.ofImageAt k image) :
    k ≤ c.1 ∧ c.1 < k + image.length ∧ c.2 ≠ Memory.unlisted := by
  induction image generalizing k with
  | nil => simp [Memory.ofImageAt] at h
  | cons v rest ih =>
    unfold Memory.ofImageAt at h
    split at h
    · obtain ⟨h1, h2, h3⟩ := ih (k + 1) h
      rw [List.length_cons]
      exact ⟨by omega, by omega, h3⟩
    · next hv =>
      rcases List.mem_cons.mp h with rfl | h
      · exact ⟨by simp, by simp, hv⟩
      · obtain ⟨h1, h2, h3⟩ := ih (k + 1) h
        rw [List.length_cons]
        exact ⟨by omega, by omega, h3⟩

/-- The memory of an image of at most 256 bytes has the canonical form. -/
theorem Memory.ofImageAt_wf (image : List Byte) (k : Nat) (h : k + image.length ≤ Config.memSize) :
    (Memory.ofImageAt k image).wf := by
  refine ⟨?_, ?_⟩
  · clear h
    induction image generalizing k with
    | nil => simp [Memory.ofImageAt]
    | cons v rest ih =>
      unfold Memory.ofImageAt
      split
      · exact ih (k + 1)
      · refine List.pairwise_cons.mpr ⟨?_, ih (k + 1)⟩
        intro c hc
        exact (Memory.ofImageAt_mem rest (k + 1) c hc).1
  · intro c hc
    have := Memory.ofImageAt_mem image k c hc
    exact ⟨by omega, this.2.2⟩

/-- Reset memory has the canonical form. -/
theorem State.reset_mem_wf : State.reset.mem.wf := by decide

/-- The only operation of the state that touches memory keeps the canonical form. -/
theorem State.memWrite_wf (s : State) (a v : Byte) (h : s.mem.wf) : (s.memWrite a v).mem.wf :=
  Memory.write_wf s.mem a v h

end Sys2Proof.Machine
end

