-- ==== Sys2Proof/Laws/State.lean ====
section
/-! SUPPORT. One lemma per field of State and update: what the update leaves in that field. -/

namespace Sys2Proof.Machine

variable (s : State)

@[simp] theorem State.setReg_regs (i : RegIdx) (v : Byte) : (s.setReg i v).regs = s.regs.set i v := rfl
@[simp] theorem State.setReg_pc (i : RegIdx) (v : Byte) : (s.setReg i v).pc = s.pc := rfl
@[simp] theorem State.setReg_fl (i : RegIdx) (v : Byte) : (s.setReg i v).fl = s.fl := rfl
@[simp] theorem State.setReg_mem (i : RegIdx) (v : Byte) : (s.setReg i v).mem = s.mem := rfl
@[simp] theorem State.setReg_runState (i : RegIdx) (v : Byte) : (s.setReg i v).runState = s.runState := rfl
@[simp] theorem State.setReg_cause (i : RegIdx) (v : Byte) : (s.setReg i v).cause = s.cause := rfl
@[simp] theorem State.setReg_info (i : RegIdx) (v : Byte) : (s.setReg i v).info = s.info := rfl
@[simp] theorem State.setReg_out (i : RegIdx) (v : Byte) : (s.setReg i v).out = s.out := rfl

@[simp] theorem State.setSp_regs (v : Byte) : (s.setSp v).regs = s.regs.set Config.spIndex v := rfl
@[simp] theorem State.setSp_pc (v : Byte) : (s.setSp v).pc = s.pc := rfl
@[simp] theorem State.setSp_fl (v : Byte) : (s.setSp v).fl = s.fl := rfl
@[simp] theorem State.setSp_mem (v : Byte) : (s.setSp v).mem = s.mem := rfl
@[simp] theorem State.setSp_runState (v : Byte) : (s.setSp v).runState = s.runState := rfl
@[simp] theorem State.setSp_cause (v : Byte) : (s.setSp v).cause = s.cause := rfl
@[simp] theorem State.setSp_info (v : Byte) : (s.setSp v).info = s.info := rfl
@[simp] theorem State.setSp_out (v : Byte) : (s.setSp v).out = s.out := rfl

@[simp] theorem State.setPc_regs (t : Byte) : (s.setPc t).regs = s.regs := rfl
@[simp] theorem State.setPc_pc (t : Byte) : (s.setPc t).pc = t := rfl
@[simp] theorem State.setPc_fl (t : Byte) : (s.setPc t).fl = s.fl := rfl
@[simp] theorem State.setPc_mem (t : Byte) : (s.setPc t).mem = s.mem := rfl
@[simp] theorem State.setPc_runState (t : Byte) : (s.setPc t).runState = s.runState := rfl
@[simp] theorem State.setPc_cause (t : Byte) : (s.setPc t).cause = s.cause := rfl
@[simp] theorem State.setPc_info (t : Byte) : (s.setPc t).info = s.info := rfl
@[simp] theorem State.setPc_out (t : Byte) : (s.setPc t).out = s.out := rfl

@[simp] theorem State.setFl_regs (f : Flags) : (s.setFl f).regs = s.regs := rfl
@[simp] theorem State.setFl_pc (f : Flags) : (s.setFl f).pc = s.pc := rfl
@[simp] theorem State.setFl_fl (f : Flags) : (s.setFl f).fl = f := rfl
@[simp] theorem State.setFl_mem (f : Flags) : (s.setFl f).mem = s.mem := rfl
@[simp] theorem State.setFl_runState (f : Flags) : (s.setFl f).runState = s.runState := rfl
@[simp] theorem State.setFl_cause (f : Flags) : (s.setFl f).cause = s.cause := rfl
@[simp] theorem State.setFl_info (f : Flags) : (s.setFl f).info = s.info := rfl
@[simp] theorem State.setFl_out (f : Flags) : (s.setFl f).out = s.out := rfl

@[simp] theorem State.memWrite_regs (a v : Byte) : (s.memWrite a v).regs = s.regs := rfl
@[simp] theorem State.memWrite_pc (a v : Byte) : (s.memWrite a v).pc = s.pc := rfl
@[simp] theorem State.memWrite_fl (a v : Byte) : (s.memWrite a v).fl = s.fl := rfl
@[simp] theorem State.memWrite_mem (a v : Byte) : (s.memWrite a v).mem = s.mem.write a v := rfl
@[simp] theorem State.memWrite_runState (a v : Byte) : (s.memWrite a v).runState = s.runState := rfl
@[simp] theorem State.memWrite_cause (a v : Byte) : (s.memWrite a v).cause = s.cause := rfl
@[simp] theorem State.memWrite_info (a v : Byte) : (s.memWrite a v).info = s.info := rfl
@[simp] theorem State.memWrite_out (a v : Byte) : (s.memWrite a v).out = s.out := rfl

@[simp] theorem State.emit_regs (v : Byte) : (s.emit v).regs = s.regs := rfl
@[simp] theorem State.emit_pc (v : Byte) : (s.emit v).pc = s.pc := rfl
@[simp] theorem State.emit_fl (v : Byte) : (s.emit v).fl = s.fl := rfl
@[simp] theorem State.emit_mem (v : Byte) : (s.emit v).mem = s.mem := rfl
@[simp] theorem State.emit_runState (v : Byte) : (s.emit v).runState = s.runState := rfl
@[simp] theorem State.emit_cause (v : Byte) : (s.emit v).cause = s.cause := rfl
@[simp] theorem State.emit_info (v : Byte) : (s.emit v).info = s.info := rfl
@[simp] theorem State.emit_out (v : Byte) : (s.emit v).out = s.out ++ [v] := rfl

@[simp] theorem State.stop_regs (r : StopRecord) : (s.stop r).regs = s.regs := rfl
@[simp] theorem State.stop_pc (r : StopRecord) : (s.stop r).pc = s.pc := rfl
@[simp] theorem State.stop_fl (r : StopRecord) : (s.stop r).fl = s.fl := rfl
@[simp] theorem State.stop_mem (r : StopRecord) : (s.stop r).mem = s.mem := rfl
@[simp] theorem State.stop_runState (r : StopRecord) : (s.stop r).runState = r.cause.runState := rfl
@[simp] theorem State.stop_cause (r : StopRecord) : (s.stop r).cause = r.cause := rfl
@[simp] theorem State.stop_info (r : StopRecord) : (s.stop r).info = r.info := rfl
@[simp] theorem State.stop_out (r : StopRecord) : (s.stop r).out = s.out := rfl

@[simp] theorem State.decSp_regs : (s.decSp).regs = s.regs.set Config.spIndex (s.sp - 1#8) := rfl
@[simp] theorem State.decSp_pc : (s.decSp).pc = s.pc := rfl
@[simp] theorem State.decSp_fl : (s.decSp).fl = s.fl := rfl
@[simp] theorem State.decSp_mem : (s.decSp).mem = s.mem := rfl
@[simp] theorem State.decSp_runState : (s.decSp).runState = s.runState := rfl
@[simp] theorem State.decSp_cause : (s.decSp).cause = s.cause := rfl
@[simp] theorem State.decSp_info : (s.decSp).info = s.info := rfl
@[simp] theorem State.decSp_out : (s.decSp).out = s.out := rfl

@[simp] theorem State.incSp_regs : (s.incSp).regs = s.regs.set Config.spIndex (s.sp + 1#8) := rfl
@[simp] theorem State.incSp_pc : (s.incSp).pc = s.pc := rfl
@[simp] theorem State.incSp_fl : (s.incSp).fl = s.fl := rfl
@[simp] theorem State.incSp_mem : (s.incSp).mem = s.mem := rfl
@[simp] theorem State.incSp_runState : (s.incSp).runState = s.runState := rfl
@[simp] theorem State.incSp_cause : (s.incSp).cause = s.cause := rfl
@[simp] theorem State.incSp_info : (s.incSp).info = s.info := rfl
@[simp] theorem State.incSp_out : (s.incSp).out = s.out := rfl

@[simp] theorem State.advance_regs (op : Byte) : (s.advance op).regs = s.regs := by
  unfold State.advance; split <;> rfl
@[simp] theorem State.advance_fl (op : Byte) : (s.advance op).fl = s.fl := by
  unfold State.advance; split <;> rfl
@[simp] theorem State.advance_mem (op : Byte) : (s.advance op).mem = s.mem := by
  unfold State.advance; split <;> rfl
@[simp] theorem State.advance_runState (op : Byte) : (s.advance op).runState = s.runState := by
  unfold State.advance; split <;> rfl
@[simp] theorem State.advance_cause (op : Byte) : (s.advance op).cause = s.cause := by
  unfold State.advance; split <;> rfl
@[simp] theorem State.advance_info (op : Byte) : (s.advance op).info = s.info := by
  unfold State.advance; split <;> rfl
@[simp] theorem State.advance_out (op : Byte) : (s.advance op).out = s.out := by
  unfold State.advance; split <;> rfl

end Sys2Proof.Machine
end

