-- ==== Sys2Proof/Laws/Ops.lean ====
section
/-! SUPPORT. One lemma per shared operation: reading registers and memory after an update, the register-index check, the
operand forms, the advance, and what `perform` can answer. -/

namespace Sys2Proof.Machine

variable (s : State)

/-! ### Reading a register or a byte of memory after an update -/

theorem State.reg_setReg (i j : RegIdx) (v : Byte) : (s.setReg i v).reg j = if j = i then v else s.reg j := by
  simp only [State.reg, State.setReg, Fin.getElem_fin, Vector.getElem_set, Fin.val_inj, eq_comm]

@[simp] theorem State.reg_setReg_same (i : RegIdx) (v : Byte) : (s.setReg i v).reg i = v := by
  simp [State.reg_setReg]

@[simp] theorem State.sp_setSp (v : Byte) : (s.setSp v).sp = v := State.reg_setReg_same s _ v

theorem State.reg_setSp (j : RegIdx) (v : Byte) :
    (s.setSp v).reg j = if j = Config.spIndex then v else s.reg j := State.reg_setReg s _ j v

@[simp] theorem State.sp_decSp : s.decSp.sp = s.sp - 1#8 := State.sp_setSp s _

@[simp] theorem State.sp_incSp : s.incSp.sp = s.sp + 1#8 := State.sp_setSp s _

@[simp] theorem State.reg_setPc (j : RegIdx) (t : Byte) : (s.setPc t).reg j = s.reg j := rfl

@[simp] theorem State.reg_setFl (j : RegIdx) (f : Flags) : (s.setFl f).reg j = s.reg j := rfl

@[simp] theorem State.reg_memWrite (j : RegIdx) (a v : Byte) : (s.memWrite a v).reg j = s.reg j := rfl

@[simp] theorem State.reg_emit (j : RegIdx) (v : Byte) : (s.emit v).reg j = s.reg j := rfl

@[simp] theorem State.reg_stop (j : RegIdx) (r : StopRecord) : (s.stop r).reg j = s.reg j := rfl

@[simp] theorem State.reg_advance (j : RegIdx) (op : Byte) : (s.advance op).reg j = s.reg j := by
  simp [State.reg]

theorem State.memRead_memWrite (a b v : Byte) :
    (s.memWrite a v).memRead b = if b = a then v else s.memRead b := Memory.read_write s.mem a b v

@[simp] theorem State.memRead_advance (a op : Byte) : (s.advance op).memRead a = s.memRead a := by
  simp [State.memRead]

/-! ### The register-index check and the operand forms -/

theorem reg_of_namesReg {v : Byte} {r : RegIdx} (h : v.toNat = r.val) : reg v = .ok r := by
  simp [reg, h]

theorem reg_of_gt {v : Byte} (h : 7 < v.toNat) : reg v = .error ⟨.invalidRegisterIndex, v⟩ := by
  have : ¬ v.toNat < 8 := by omega
  simp [reg, this]

/-- The check answers the index, or the fault with the whole byte. -/
theorem reg_cases (v : Byte) :
    (∃ r : RegIdx, v.toNat = r.val ∧ reg v = .ok r) ∨
    (7 < v.toNat ∧ reg v = .error ⟨.invalidRegisterIndex, v⟩) := by
  by_cases h : v.toNat < 8
  · exact .inl ⟨⟨v.toNat, h⟩, rfl, reg_of_namesReg rfl⟩
  · exact .inr ⟨by omega, reg_of_gt (by omega)⟩

theorem onReg_of_namesReg {a : Byte} {ra : RegIdx} (h : a.toNat = ra.val)
    (f : RegIdx → Except StopRecord State) : onReg a f = f ra := by
  simp [onReg, reg_of_namesReg h]

theorem onReg_of_gt {a : Byte} (h : 7 < a.toNat) (f : RegIdx → Except StopRecord State) :
    onReg a f = .error ⟨.invalidRegisterIndex, a⟩ := by
  simp [onReg, reg_of_gt h]

theorem onRegs_of_namesReg {a b : Byte} {ra rb : RegIdx} (ha : a.toNat = ra.val) (hb : b.toNat = rb.val)
    (f : RegIdx → RegIdx → Except StopRecord State) : onRegs a b f = f ra rb := by
  simp [onRegs, onReg_of_namesReg ha, onReg_of_namesReg hb]

/-- An operation on one register answers what the operation answers, or the index fault. -/
theorem onReg_cases (a : Byte) (f : RegIdx → Except StopRecord State) :
    (∃ ra : RegIdx, a.toNat = ra.val ∧ onReg a f = f ra) ∨
    (7 < a.toNat ∧ onReg a f = .error ⟨.invalidRegisterIndex, a⟩) := by
  rcases reg_cases a with ⟨ra, h, _⟩ | ⟨h, _⟩
  · exact .inl ⟨ra, h, onReg_of_namesReg h f⟩
  · exact .inr ⟨h, onReg_of_gt h f⟩

/-- An operation on two registers answers what the operation answers, or the index fault of `a`, or that of `b`. -/
theorem onRegs_cases (a b : Byte) (f : RegIdx → RegIdx → Except StopRecord State) :
    (∃ ra rb : RegIdx, a.toNat = ra.val ∧ b.toNat = rb.val ∧ onRegs a b f = f ra rb) ∨
    (7 < a.toNat ∧ onRegs a b f = .error ⟨.invalidRegisterIndex, a⟩) ∨
    (a.toNat ≤ 7 ∧ 7 < b.toNat ∧ onRegs a b f = .error ⟨.invalidRegisterIndex, b⟩) := by
  rcases onReg_cases a (fun ra => onReg b (fun rb => f ra rb)) with ⟨ra, ha, e⟩ | ⟨h, e⟩
  · rcases onReg_cases b (fun rb => f ra rb) with ⟨rb, hb, e'⟩ | ⟨hb, e'⟩
    · exact .inl ⟨ra, rb, ha, hb, e.trans e'⟩
    · exact .inr (.inr ⟨by omega, hb, e.trans e'⟩)
  · exact .inr (.inl ⟨h, e⟩)

/-! ### The advance and the loop around an operation -/

/-- The advance after a known opcode: nothing for the five that set `pc`, else by the instruction's length. -/
theorem State.advance_opcode (m : Mnemonic) :
    s.advance (opcode m) =
      if m.setsPc then s else s.setPc (s.pc + BitVec.ofNat 8 (1 + m.format.operandCount)) := by
  simp [State.advance]

/-- `perform` always answers a next state: the fault entry on the state before, or the operation's state advanced. -/
theorem perform_next {m : Mnemonic} {r : Except StopRecord State} {before t : State} :
    perform m r before = .next t ↔
      (∃ e, r = .error e ∧ t = before.stop e) ∨ (∃ u, r = .ok u ∧ t = u.advance (opcode m)) := by
  cases r with
  | error e => simp [perform, eq_comm]
  | ok u => simp [perform, eq_comm]

end Sys2Proof.Machine
end

