-- ==== Sys2Proof/Laws/Step.lean ====
section
/-! SUPPORT. What one step can do. -/

namespace Sys2Proof.Machine

/-- A step that answers a next state was taken while running, and either ran the decoded instruction or entered the
fault UnknownOpcode. -/
theorem step_next {s t : State} (h : step s = .next t) :
    s.runState = .running ∧
    ((∃ i, decode s.fetch = .ok i ∧ exec i s = .next t) ∨
     (mnemonicOf s.fetch.op = none ∧ t = s.stop ⟨.unknownOpcode, s.fetch.op⟩)) := by
  unfold step at h
  split at h
  · next hr =>
    refine ⟨hr, ?_⟩
    split at h
    · next i hi => exact .inl ⟨i, hi, h⟩
    · next e he =>
      obtain ⟨hn, rfl⟩ := decode_eq_error.mp he
      refine .inr ⟨hn, ?_⟩
      simpa [raiseDecodeError, eq_comm] using h
  · cases h
  · cases h

end Sys2Proof.Machine
end

