-- ==== Sys2Proof/Laws/Exec.lean ====
section
/-! SUPPORT. What one instruction can do, said once: HLT, a fault, or its operation followed by the advance. -/

namespace Sys2Proof.Machine

/-- The state `u` an operation leaves before the advance, when it raises no fault. -/
def Operated (s : State) (i : Instr) (u : State) : Prop :=
  match i with
  | .hlt => False
  | .ret => u = (s.setPc (s.memRead s.sp)).incSp
  | .push a => ∃ ra, namesReg a ra ∧ u = s.decSp.memWrite s.decSp.sp (s.decSp.reg ra)
  | .pop a => ∃ ra, namesReg a ra ∧ u = (s.setReg ra (s.memRead s.sp)).incSp
  | .prn a => ∃ ra, namesReg a ra ∧ u = s.emit (s.reg ra)
  | .call a => ∃ ra, namesReg a ra ∧ u = (s.decSp.memWrite s.decSp.sp s.pcPlus2).setPc (s.decSp.reg ra)
  | .jmp a => ∃ ra, namesReg a ra ∧ u = s.setPc (s.reg ra)
  | .jeq a => ∃ ra, namesReg a ra ∧ u = branchIf s.equalFlag ra s
  | .jne a => ∃ ra, namesReg a ra ∧ u = branchIf (!s.equalFlag) ra s
  | .not a => ∃ ra, namesReg a ra ∧ u = s.setReg ra (aluNot (s.reg ra))
  | .ldi a imm => ∃ ra, namesReg a ra ∧ u = s.setReg ra imm
  | .add a b => ∃ ra rb, namesReg a ra ∧ namesReg b rb ∧ u = s.setReg ra (aluAdd (s.reg ra) (s.reg rb))
  | .sub a b => ∃ ra rb, namesReg a ra ∧ namesReg b rb ∧ u = s.setReg ra (aluSub (s.reg ra) (s.reg rb))
  | .mul a b => ∃ ra rb, namesReg a ra ∧ namesReg b rb ∧ u = s.setReg ra (aluMul (s.reg ra) (s.reg rb))
  | .mod a b => ∃ ra rb, namesReg a ra ∧ namesReg b rb ∧ s.reg rb ≠ 0#8 ∧ u = s.setReg ra (aluMod (s.reg ra) (s.reg rb))
  | .cmp a b => ∃ ra rb, namesReg a ra ∧ namesReg b rb ∧ u = s.setFl (compareFlags (s.reg ra) (s.reg rb))
  | .and a b => ∃ ra rb, namesReg a ra ∧ namesReg b rb ∧ u = s.setReg ra (aluAnd (s.reg ra) (s.reg rb))
  | .or a b => ∃ ra rb, namesReg a ra ∧ namesReg b rb ∧ u = s.setReg ra (aluOr (s.reg ra) (s.reg rb))
  | .xor a b => ∃ ra rb, namesReg a ra ∧ namesReg b rb ∧ u = s.setReg ra (aluXor (s.reg ra) (s.reg rb))
  | .shl a b => ∃ ra rb, namesReg a ra ∧ namesReg b rb ∧ u = s.setReg ra (aluShl (s.reg ra) (s.reg rb))
  | .shr a b => ∃ ra rb, namesReg a ra ∧ namesReg b rb ∧ u = s.setReg ra (aluShr (s.reg ra) (s.reg rb))

/-- Three ways to enter a terminal state from an instruction. -/
def Stopped (s : State) (i : Instr) (r : StopRecord) : Prop :=
  (i = .hlt ∧ r = ⟨.hlt, 0#8⟩) ∨
  (i.wf = false ∧ 7 < r.info.toNat ∧ r.cause = .invalidRegisterIndex) ∨
  (∃ a b ra rb, i = .mod a b ∧ namesReg a ra ∧ namesReg b rb ∧ s.reg rb = 0#8 ∧ r = ⟨.divisionByZero, 0#8⟩)

theorem isRegByte_of_namesReg {v : Byte} {r : RegIdx} (h : namesReg v r) : isRegByte v = true := by
  have := r.isLt
  simp only [isRegByte, decide_eq_true_eq]
  omega

theorem isRegByte_of_gt {v : Byte} (h : 7 < v.toNat) : isRegByte v = false := by
  simp only [isRegByte, decide_eq_false_iff_not]
  omega

/-- `perform` of an operation on one register. -/
theorem perform_onReg_next {m : Mnemonic} {a : Byte} {f : RegIdx → State} {s t : State}
    (h : perform m (onReg a (fun ra => .ok (f ra))) s = .next t) :
    (7 < a.toNat ∧ t = s.stop ⟨.invalidRegisterIndex, a⟩) ∨
    ∃ ra, namesReg a ra ∧ t = (f ra).advance (opcode m) := by
  rcases onReg_cases a (fun ra => .ok (f ra)) with ⟨ra, ha, e⟩ | ⟨ha, e⟩
  · rw [e] at h
    cases h
    exact .inr ⟨ra, ha, rfl⟩
  · rw [e] at h
    cases h
    exact .inl ⟨ha, rfl⟩

/-- `perform` of an operation on two registers. -/
theorem perform_onRegs_next {m : Mnemonic} {a b : Byte} {f : RegIdx → RegIdx → Except StopRecord State} {s t : State}
    (h : perform m (onRegs a b f) s = .next t) :
    (7 < a.toNat ∧ t = s.stop ⟨.invalidRegisterIndex, a⟩) ∨
    (7 < b.toNat ∧ t = s.stop ⟨.invalidRegisterIndex, b⟩) ∨
    ∃ ra rb, namesReg a ra ∧ namesReg b rb ∧ perform m (f ra rb) s = .next t := by
  rcases onRegs_cases a b f with ⟨ra, rb, ha, hb, e⟩ | ⟨ha, e⟩ | ⟨_, hb, e⟩
  · rw [e] at h
    exact .inr (.inr ⟨ra, rb, ha, hb, h⟩)
  · rw [e] at h
    cases h
    exact .inl ⟨ha, rfl⟩
  · rw [e] at h
    cases h
    exact .inr (.inl ⟨hb, rfl⟩)

theorem perform_aluBinary_next {m : Mnemonic} {a b : Byte} {f : Byte → Byte → Byte} {s t : State}
    (h : perform m (aluBinary f a b s) s = .next t) :
    (7 < a.toNat ∧ t = s.stop ⟨.invalidRegisterIndex, a⟩) ∨
    (7 < b.toNat ∧ t = s.stop ⟨.invalidRegisterIndex, b⟩) ∨
    ∃ ra rb, namesReg a ra ∧ namesReg b rb ∧
      t = (s.setReg ra (f (s.reg ra) (s.reg rb))).advance (opcode m) := by
  rcases perform_onRegs_next h with h | h | ⟨ra, rb, ha, hb, e⟩
  · exact .inl h
  · exact .inr (.inl h)
  · cases e
    exact .inr (.inr ⟨ra, rb, ha, hb, rfl⟩)

/-- What an instruction that answers a next state did: it entered a terminal state, or it operated and advanced. -/
theorem exec_next {i : Instr} {s t : State} (h : exec i s = .next t) :
    (∃ r, Stopped s i r ∧ t = s.stop r) ∨ (∃ u, Operated s i u ∧ t = u.advance (opcode i.mnemonic)) := by
  cases i with
  | hlt => cases h; exact .inl ⟨_, .inl ⟨rfl, rfl⟩, rfl⟩
  | ret => cases h; exact .inr ⟨_, rfl, rfl⟩
  | push a | pop a | prn a | call a | jmp a | jeq a | jne a | not a | ldi a imm =>
    rcases perform_onReg_next h with ⟨ha, rfl⟩ | ⟨ra, ha, rfl⟩
    · exact .inl ⟨_, .inr (.inl ⟨isRegByte_of_gt ha, ha, rfl⟩), rfl⟩
    · exact .inr ⟨_, ⟨ra, ha, rfl⟩, rfl⟩
  | add a b | sub a b | mul a b | and a b | or a b | xor a b | shl a b | shr a b =>
    rcases perform_aluBinary_next h with ⟨ha, rfl⟩ | ⟨hb, rfl⟩ | ⟨ra, rb, ha, hb, rfl⟩
    · exact .inl ⟨_, .inr (.inl ⟨by simp [Instr.wf, isRegByte_of_gt ha], ha, rfl⟩), rfl⟩
    · exact .inl ⟨_, .inr (.inl ⟨by simp [Instr.wf, isRegByte_of_gt hb], hb, rfl⟩), rfl⟩
    · exact .inr ⟨_, ⟨ra, rb, ha, hb, rfl⟩, rfl⟩
  | cmp a b =>
    rcases perform_onRegs_next h with ⟨ha, rfl⟩ | ⟨hb, rfl⟩ | ⟨ra, rb, ha, hb, e⟩
    · exact .inl ⟨_, .inr (.inl ⟨by simp [Instr.wf, isRegByte_of_gt ha], ha, rfl⟩), rfl⟩
    · exact .inl ⟨_, .inr (.inl ⟨by simp [Instr.wf, isRegByte_of_gt hb], hb, rfl⟩), rfl⟩
    · cases e
      exact .inr ⟨_, ⟨ra, rb, ha, hb, rfl⟩, rfl⟩
  | mod a b =>
    rcases perform_onRegs_next h with ⟨ha, rfl⟩ | ⟨hb, rfl⟩ | ⟨ra, rb, ha, hb, e⟩
    · exact .inl ⟨_, .inr (.inl ⟨by simp [Instr.wf, isRegByte_of_gt ha], ha, rfl⟩), rfl⟩
    · exact .inl ⟨_, .inr (.inl ⟨by simp [Instr.wf, isRegByte_of_gt hb], hb, rfl⟩), rfl⟩
    · by_cases hz : s.reg rb = 0#8
      · rw [if_pos hz] at e
        cases e
        exact .inl ⟨_, .inr (.inr ⟨a, b, ra, rb, rfl, ha, hb, hz, rfl⟩), rfl⟩
      · rw [if_neg hz] at e
        cases e
        exact .inr ⟨_, ⟨ra, rb, ha, hb, hz, rfl⟩, rfl⟩

end Sys2Proof.Machine
end

