-- ==== Sys2Proof/Tests/Slice0.lean ====
section
/-! SUPPORT. The model's own tests: well-formedness, decoding of words written out from `30_encoding.md` R78, one or two steps
per instruction whose expected values are the vectors of `95_test_vectors.md` section 2 or hand calculation from the rule, and
for each statement a witness of its hypotheses. -/

namespace Sys2Proof.Tests

open Sys2Proof.Machine

/-! ### Well-formedness refuses each kind of ill-formed term (R75), and takes any immediate (R74) -/

theorem test_wf_first_register_byte : (Instr.push 8#8).wf = false := by decide
theorem test_wf_first_of_two : (Instr.add 0xFF#8 0#8).wf = false := by decide
theorem test_wf_second_of_two : (Instr.add 7#8 8#8).wf = false := by decide
theorem test_wf_register_of_ldi : (Instr.ldi 9#8 0#8).wf = false := by decide
theorem test_wf_any_immediate : (Instr.ldi 7#8 0xFF#8).wf = true := by decide
theorem test_wf_every_register : (Instr.xor 0#8 7#8).wf = true := by decide

/-! ### The opcode-table check refuses a table that breaks each constraint of R79 -/

/-- The opcode table with one value replaced. -/
def tableWith (m : Mnemonic) (v : Byte) : Mnemonic → Byte := fun k => if k = m then v else opcode k

theorem test_table_operand_count : tableWf (tableWith .not 0xA9#8) = false := by decide
theorem test_table_sets_pc : tableWf (tableWith .jmp 0x44#8) = false := by decide
theorem test_table_distinct : tableWf (tableWith .sub 0xA0#8) = false := by decide
theorem test_table_no_three_operands : tableWf (tableWith .add 0xE0#8) = false := by decide

/-! ### Decoding, one word for each constructor (R78; the second byte stands in bits 15..8) -/

theorem test_decode_hlt : decodeTableWord 8 0b00000001 = some .hlt := by decide
theorem test_decode_ret : decodeTableWord 8 0b00010001 = some .ret := by decide
theorem test_decode_push : decodeTableWord 16 0b00000111_01000101 = some (.push 7#8) := by decide
theorem test_decode_pop : decodeTableWord 16 0b00000001_01000110 = some (.pop 1#8) := by decide
theorem test_decode_prn : decodeTableWord 16 0b00000010_01000111 = some (.prn 2#8) := by decide
theorem test_decode_call : decodeTableWord 16 0b00000011_01010000 = some (.call 3#8) := by decide
theorem test_decode_jmp : decodeTableWord 16 0b00000100_01010100 = some (.jmp 4#8) := by decide
theorem test_decode_jeq : decodeTableWord 16 0b00000101_01010101 = some (.jeq 5#8) := by decide
theorem test_decode_jne : decodeTableWord 16 0b00000110_01010110 = some (.jne 6#8) := by decide
theorem test_decode_not : decodeTableWord 16 0b00000101_01101001 = some (.not 5#8) := by decide
theorem test_decode_ldi : decodeTableWord 24 0b11001000_00000011_10000010 = some (.ldi 3#8 200#8) := by decide
theorem test_decode_add : decodeTableWord 24 0b00000001_00000010_10100000 = some (.add 2#8 1#8) := by decide
theorem test_decode_sub : decodeTableWord 24 0b00000001_00000010_10100001 = some (.sub 2#8 1#8) := by decide
theorem test_decode_mul : decodeTableWord 24 0b00000001_00000010_10100010 = some (.mul 2#8 1#8) := by decide
theorem test_decode_mod : decodeTableWord 24 0b00000001_00000010_10100100 = some (.mod 2#8 1#8) := by decide
theorem test_decode_cmp : decodeTableWord 24 0b00000001_00000010_10100111 = some (.cmp 2#8 1#8) := by decide
theorem test_decode_and : decodeTableWord 24 0b00000001_00000010_10101000 = some (.and 2#8 1#8) := by decide
theorem test_decode_or : decodeTableWord 24 0b00000001_00000010_10101010 = some (.or 2#8 1#8) := by decide
theorem test_decode_xor : decodeTableWord 24 0b00000001_00000010_10101011 = some (.xor 2#8 1#8) := by decide
theorem test_decode_shl : decodeTableWord 24 0b00000001_00000010_10101100 = some (.shl 2#8 1#8) := by decide
theorem test_decode_shr : decodeTableWord 24 0b00000001_00000010_10101101 = some (.shr 2#8 1#8) := by decide
/-- No DIV, no NOP, LDI with bit 4 flipped, HLT with bit 5 flipped, operand count 3 (95, section 2.5). -/
theorem test_decode_unknown :
    [0xA3, 0x00, 0x92, 0x21, 0xC0].map (decodeTableWord 24) = [none, none, none, none, none] := by decide

/-! ### One step from a small state -/

/-- The reset state with some registers set. -/
def start (l : List (RegIdx × Byte)) : State := l.foldl (fun s p => s.setReg p.1 p.2) State.reset

/-- One step of an instruction word placed at `pc`. -/
def run1 (s : State) (w : Nat) : Option State :=
  match step (s.withFetchWord 24 w) with
  | .next t => some t
  | .fault _ => none
  | .refused _ => none

theorem test_add_wraps : (run1 (start [(0, 0xC8), (1, 0x64)]) 0x0100A0).map (fun t => (t.reg 0, t.pc)) = some (0x2C, 3) := by
  decide
theorem test_add_stack_pointer : (run1 (start [(1, 2)]) 0x0107A0).map (fun t => (t.sp, t.reg 1)) = some (0xF6, 2) := by decide
theorem test_sub_wraps : (run1 (start [(0, 3), (1, 5)]) 0x0100A1).map (fun t => (t.reg 0, t.reg 1)) = some (0xFE, 5) := by
  decide
theorem test_mul_low_byte : (run1 (start [(0, 0x64), (1, 3)]) 0x0100A2).map (fun t => (t.reg 0, t.pc)) = some (0x2C, 3) := by
  decide
theorem test_mul_square : (run1 (start [(0, 0x0F)]) 0x0000A2).map (fun t => t.reg 0) = some 0xE1 := by decide
theorem test_mod_unsigned : (run1 (start [(0, 0xFF), (1, 0x10)]) 0x0100A4).map (fun t => (t.reg 0, t.pc)) = some (0x0F, 3) := by
  decide
/-- S6: the zero divisor halts, `r0` and `pc` stay, and the next byte is not overwritten. -/
theorem test_mod_by_zero : (run1 (start [(0, 10)]) 0x0100A4).map (fun t => (t.runState, t.cause, t.reg 0, t.pc, t.memRead 3)) =
    some (.halted, .divisionByZero, 10, 0, 0) := by decide
theorem test_and : (run1 (start [(0, 0xCC), (1, 0xAA)]) 0x0100A8).map (fun t => t.reg 0) = some 0x88 := by decide
theorem test_or : (run1 (start [(0, 0xCC), (1, 0xAA)]) 0x0100AA).map (fun t => t.reg 0) = some 0xEE := by decide
theorem test_xor : (run1 (start [(0, 0xCC), (1, 0xAA)]) 0x0100AB).map (fun t => t.reg 0) = some 0x66 := by decide
/-- NOT ignores the byte after its operand (95, section 2.5). -/
theorem test_not_two_bytes : (run1 (start [(0, 0x0F)]) 0xFF0069).map (fun t => (t.reg 0, t.pc)) = some (0xF0, 2) := by decide
theorem test_shl_count_eight : (run1 (start [(0, 0xFF), (1, 8)]) 0x0100AC).map (fun t => t.reg 0) = some 0 := by decide
theorem test_shl_by_itself : (run1 (start [(0, 5)]) 0x0000AC).map (fun t => t.reg 0) = some 0xA0 := by decide
theorem test_shr_logical : (run1 (start [(0, 0x80), (1, 7)]) 0x0100AD).map (fun t => t.reg 0) = some 1 := by decide
theorem test_shr_count_whole_byte : (run1 (start [(0, 0xFF), (1, 0xFF)]) 0x0100AD).map (fun t => t.reg 0) = some 0 := by decide
theorem test_cmp_unsigned_clears_less : (run1 ((start [(0, 0xC8), (1, 0x64)]).setFl ⟨false, true, false⟩) 0x0100A7).map
    (fun t => (t.fl, t.fl.toByte)) = some (⟨false, false, true⟩, 0x02) := by decide
theorem test_cmp_less : (run1 (start [(0, 3), (1, 9)]) 0x0100A7).map (fun t => (t.fl, t.pc)) =
    some (⟨false, true, false⟩, 3) := by decide
theorem test_ldi_immediate_not_checked : (run1 State.reset 0x090082).map (fun t => (t.reg 0, t.pc, t.runState)) =
    some (9, 3, .running) := by decide
/-- D8: an instruction at `FE FF 00`. -/
theorem test_ldi_across_the_top : (run1 (State.reset.setPc 0xFE) 0x2A0082).map (fun t => (t.reg 0, t.pc)) =
    some (0x2A, 1) := by decide
theorem test_prn : (run1 ((start [(0, 0xFF)]).emit 1) 0x000047).map (fun t => (t.out, t.pc)) = some ([1, 0xFF], 2) := by decide
theorem test_hlt : (run1 (State.reset.setPc 5) 0x000001).map (fun t => (t.runState, t.cause, t.info, t.pc)) =
    some (.halted, .hlt, 0, 5) := by decide
/-- The push lands on the instruction's own operand byte, and it still runs as `PUSH r0` (95, section 2.2). -/
theorem test_push_over_itself : (run1 (start [(7, 2), (0, 5)]) 0x010045).map (fun t => (t.sp, t.memRead 1, t.pc)) =
    some (1, 5, 2) := by decide
theorem test_push_r7_wraps : (run1 (start [(7, 0)]) 0x000745).map (fun t => (t.sp, t.memRead 0xFF)) = some (0xFF, 0xFF) := by
  decide
theorem test_pop_wraps : (run1 ((start [(7, 0xFF)]).memWrite 0xFF 0x33) 0x000246).map (fun t => (t.reg 2, t.sp, t.memRead 0xFF)) =
    some (0x33, 0, 0x33) := by decide
theorem test_pop_r7 : (run1 ((start [(7, 0xF3)]).memWrite 0xF3 0x80) 0x000746).map (fun t => t.sp) = some 0x81 := by decide
/-- The return address of a CALL at `0xFF` is 1 (95, section 2.2). -/
theorem test_call_at_the_top : (run1 ((start [(1, 0x40)]).setPc 0xFF) 0x000150).map (fun t => (t.pc, t.sp, t.memRead 0xF3)) =
    some (0x40, 0xF3, 1) := by decide
theorem test_call_r7 : (run1 State.reset 0x000750).map (fun t => (t.pc, t.sp, t.memRead 0xF3)) = some (0xF3, 0xF3, 2) := by
  decide
theorem test_ret_ignores_operands : (run1 ((start [(7, 0xF3)]).memWrite 0xF3 0x20) 0xFFFF11).map (fun t => (t.pc, t.sp)) =
    some (0x20, 0xF4) := by decide
theorem test_jmp : (run1 ((start [(2, 0x14)]).setPc 6) 0x000254).map (fun t => t.pc) = some 0x14 := by decide
theorem test_jeq_taken : (run1 ((start [(2, 0x1E)]).setFl ⟨true, false, false⟩) 0x000255).map (fun t => t.pc) = some 0x1E := by
  decide
theorem test_jeq_not_taken_at_the_top : (run1 (((start [(2, 0x1E)]).setFl ⟨false, false, true⟩).setPc 0xFE) 0x000255).map
    (fun t => t.pc) = some 0 := by decide
theorem test_jne_taken_on_greater : (run1 ((start [(2, 4)]).setFl ⟨false, false, true⟩) 0x000256).map (fun t => t.pc) =
    some 4 := by decide
theorem test_jne_not_taken : (run1 (((start [(2, 4)]).setFl ⟨true, false, false⟩).setPc 9) 0x000256).map (fun t => t.pc) =
    some 0x0B := by decide
/-- D22: the operand of a branch that is not taken is checked all the same. -/
theorem test_jeq_bad_register : (run1 State.reset 0x000955).map (fun t => (t.runState, t.cause, t.info, t.pc)) =
    some (.fatalError, .invalidRegisterIndex, 9, 0) := by decide
/-- `MOD r8,r9` reports 8, `MOD r0,r9` reports 9 before the zero divisor, `A3 09 09` the opcode (R179). -/
theorem test_fault_priority : [0x0908A4, 0x0900A4, 0x0909A3].map (fun w => (run1 State.reset w).map (fun t => (t.cause, t.info))) =
    [some (.invalidRegisterIndex, 8), some (.invalidRegisterIndex, 9), some (.unknownOpcode, 0xA3)] := by decide
/-- An empty image: the first step raises UnknownOpcode(0) at 0 (R204). -/
theorem test_reset_runs_into_unknown_opcode : step State.reset =
    .next { State.reset with runState := .fatalError, cause := .unknownOpcode, info := 0 } := rfl
theorem test_no_step_when_halted : step (State.reset.stop ⟨.hlt, 0⟩) = .fault (.runOver .halted) := rfl
/-- The image of S9, `LDI r0,8; PRN r0; HLT`, is memory. -/
theorem test_load_image : (State.loadImage [0x82, 0x00, 0x08, 0x47, 0x00, 0x01]).map (fun s => (s.mem, s.sp)) =
    some ([(0, 0x82), (2, 0x08), (3, 0x47), (5, 0x01)], 0xF4) := by decide
/-- A write of the value an unlisted cell reads as removes the entry. -/
theorem test_memory_canonical : Memory.write (Memory.write (Memory.write [] 9 1) 3 2) 9 0 = [(3, 2)] := by decide
theorem test_trace : (((start [(1, 7)]).setFl ⟨false, true, false⟩).withFetchWord 24 0x0100A0).trace =
    some ⟨0, 0x04, 0xA0, 0x00, 0x01, #v[0, 7, 0, 0, 0, 0, 0, 0xF4]⟩ := by decide
theorem test_status_and_stdout : ((State.reset.emit 8).stop ⟨.hlt, 0⟩).statusOutputs = (.halted, some ⟨.hlt, 0⟩) ∧
    (State.reset.emit 8).stdout = "8\n" := by decide

/-! ### For each statement with hypotheses, a state and operands that meet them, at the ends of their ranges -/

/-- The state one step after `s` (and `s` itself where the step stops). -/
def after (s : State) : State :=
  match step s with
  | .next t => t
  | .fault _ => s
  | .refused _ => s

/-- The state one instruction after `s`. -/
def did (i : Instr) (s : State) : State :=
  match exec i s with
  | .next t => t
  | .fault _ => s
  | .refused _ => s

/-- Every register operand byte that names a register, at both ends; used by all statements about an instruction's result. -/
theorem witness_namesReg : namesReg 0#8 0 ∧ namesReg 7#8 7 := by decide

theorem witness_DecodeAndEncodeAgree :
    decode ⟨0xA0, 7, 7⟩ = .ok (.add 7 7) ∧ encode (.add 7 7) <+: [0xA0, 7, 7] := by decide
theorem witness_ExactlyTwentyOneOpcodesAreKnown :
    decode ⟨0x00, 0, 0⟩ = .error (.unknownOpcode 0x00) ∧ decode ⟨0xFF, 0, 0⟩ = .error (.unknownOpcode 0xFF) := by decide

def retState : State := State.reset.withFetchWord 24 0xFFFF11
def notState : State := State.reset.withFetchWord 24 0xFF0769

theorem witness_IgnoredOperandBytesHaveNoEffect_z :
    mnemonicOf 0x11 = some .ret ∧ Mnemonic.ret.format = .z ∧ retState.fetch = ⟨0x11, 0xFF, 0xFF⟩ ∧
      retState.runState = .running ∧ step retState = .next (after retState) := ⟨by decide, rfl, by decide, rfl, rfl⟩
theorem witness_IgnoredOperandBytesHaveNoEffect_r :
    mnemonicOf 0x69 = some .not ∧ Mnemonic.not.format = .r ∧ notState.fetch = ⟨0x69, 7, 0xFF⟩ ∧ (7#8).toNat ≤ 7 ∧
      notState.runState = .running ∧ step notState = .next (after notState) := ⟨by decide, rfl, by decide, by decide, rfl, rfl⟩

/-- `LDI r7,9` at `FE FF 00`. -/
def topState : State := (State.reset.setPc 0xFE).withFetchWord 24 0x090782

theorem witness_StepRunsTheDecodedInstruction :
    topState.runState = .running ∧ decode topState.fetch = .ok (.ldi 7 9) := by decide
theorem witness_StepRunsTheEncodedInstruction : topState.runState = .running ∧
    topState.memRead topState.pc = 0x82 ∧ topState.memRead (topState.pc + 1) = 7 ∧ topState.memRead (topState.pc + 2) = 9 ∧
      encode (.ldi 7 9) = [0x82, 7, 9] := by decide
theorem witness_UnknownOpcodeEndsTheRun :
    State.reset.runState = .running ∧ mnemonicOf (State.reset.memRead State.reset.pc) = none := by decide

def haltedState : State := State.reset.stop ⟨.hlt, 0⟩

theorem witness_TerminalStatesTakeNoStep : haltedState.runState ≠ .running ∧ Reaches haltedState haltedState :=
  ⟨by decide, .refl _⟩
theorem witness_StepIsTotalWhileRunning : State.reset.runState = .running := rfl

theorem witness_LoadedImageIsMemoryAndTheEntryPointIsZero :
    (State.loadImage (List.replicate 256 0xFF#8)).isSome = true ∧ (List.replicate 256 0xFF#8)[0]? = some 0xFF#8 ∧
      (List.replicate 256 0xFF#8)[255]? = some 0xFF#8 :=
  ⟨by rw [State.loadImage, if_pos (show _ ≤ Config.memSize from (List.length_replicate (n := 256)).le)]; rfl,
    by rw [List.getElem?_replicate]; rfl, by rw [List.getElem?_replicate]; rfl⟩
theorem witness_LoadedImageGivesTheResetState :
    256 < (List.replicate 257 0#8).length ∧ (List.replicate 256 0#8).length ≤ 256 ∧ ([] : List Byte).length ≤ 256 :=
  ⟨by rw [List.length_replicate]; decide, by rw [List.length_replicate], by decide⟩

/-- `PUSH r7`, whose store lands at `0xF3`. -/
def pushState : State := State.reset.withFetchWord 24 0x000745

theorem witness_EveryStepKeepsTheInvariant : pushState.Inv ∧ step pushState = .next (after pushState) := ⟨by decide, rfl⟩
theorem witness_CanonicalMemoriesThatReadAlikeAreEqual : Memory.wf [(0, 1#8), (255, 0xFF#8)] := by decide

def cmpState : State := (start [(0, 3), (1, 9)]).withFetchWord 24 0x0100A7
def jeqState : State := (start [(2, 0x1E)]).withFetchWord 24 0x000255

theorem witness_OnlyCmpWritesFlags : step cmpState = .next (after cmpState) ∧ (after cmpState).fl ≠ cmpState.fl :=
  ⟨rfl, by decide⟩
theorem witness_TraceShowsTheFlagsOfACompare : namesReg 0#8 0 ∧ namesReg 7#8 7 ∧ cmpState.runState = .running ∧
    (after cmpState).trace = some ⟨3, 0x04, 0, 0, 0, cmpState.regs⟩ := by decide
/-- A branch with the same Equal flag and another Less flag, and an instruction that is no branch with any flags. -/
theorem witness_OnlyJeqJneReadFlags : step jeqState = .next (after jeqState) ∧
    (⟨false, true, false⟩ : Flags).E = jeqState.fl.E ∧ decode cmpState.fetch = .ok (.cmp 0 1) := ⟨rfl, by decide, by decide⟩
theorem witness_OnlyPushAndCallWriteMemory : step pushState = .next (after pushState) ∧
    (after pushState).memRead 0xF3 ≠ pushState.memRead 0xF3 := ⟨rfl, by decide⟩

/-- The same as `retState` but for a byte the RET does not read. -/
def retState2 : State := retState.memWrite 0x80 5

theorem witness_StepDependsOnlyOnTheBytesItReads : SameButMemory retState retState2 ∧ retState2.fetch = retState.fetch ∧
    decode retState.fetch = .ok .ret ∧ retState2.memRead retState.sp = retState.memRead retState.sp ∧
      step retState = .next (after retState) ∧ retState2 ≠ retState := ⟨rfl, by decide, by decide, by decide, rfl, by decide⟩

def prnState : State := State.reset.withFetchWord 24 0x000747

theorem witness_OutputGrowsByOneBytePerPrnAndIsNeverRead : (State.loadImage []).isSome = true ∧
    step prnState = .next (after prnState) ∧ decode prnState.fetch = .ok (.prn 7) ∧ (after prnState).out = [0xF4] :=
  ⟨by decide, rfl, by decide, by decide⟩

/-- `MOD r0,r7` and `MOD r7,r0` from reset: the second divides by zero. -/
def modState : State := State.reset.withFetchWord 24 0x0700A4
def modZeroState : State := State.reset.withFetchWord 24 0x0007A4

theorem witness_LeavingRunningChangesOnlyTheStatus : step modZeroState = .next (after modZeroState) ∧
    (after modZeroState).runState ≠ .running := ⟨rfl, by decide⟩
theorem witness_ExactlyTheseStepsEndTheRun : step modState = .next (after modState) ∧
    (after modState).runState = .running ∧ (after modZeroState).runState = .halted ∧
      (after State.reset).runState = .fatalError := ⟨rfl, by decide, by decide, by decide⟩
theorem witness_AdvanceFollowsTheOpcodeFields : (encode (.ldi 7 9))[0]? = some 0x82 ∧ topState.runState = .running ∧
    exec (.ldi 7 9) topState = .next (did (.ldi 7 9) topState) ∧ (did (.ldi 7 9) topState).runState = .running ∧
      (0x82#8).toNat / 16 % 2 = 0 := ⟨by decide, by decide, rfl, by decide, by decide⟩

theorem witness_FirstRegisterByteAboveSevenFaults :
    Mnemonic.jeq.format ≠ .z ∧ Mnemonic.ldi.format ≠ .z ∧ 7 < (8#8).toNat ∧ 7 < (0xFF#8).toNat := by decide
theorem witness_SecondRegisterByteAboveSevenFaults :
    Mnemonic.mod.format = .rr ∧ (7#8).toNat ≤ 7 ∧ 7 < (8#8).toNat := by decide
theorem witness_ModByZeroHalts : namesReg 7#8 7 ∧ namesReg 0#8 0 ∧ modZeroState.reg 0 = 0x00#8 := by decide
theorem witness_ModWritesTheUnsignedRemainder : namesReg 0#8 0 ∧ namesReg 7#8 7 ∧ modState.reg 7 ≠ 0x00#8 := by decide
theorem witness_ExitCodeFollowsTheEndOfTheRun :
    (State.reset.Inv ∧ State.reset.runState = .running) ∧ (haltedState.Inv ∧ haltedState.endedNormally) ∧
      ((after State.reset).Inv ∧ (after State.reset).runState = .fatalError) ∧
      ((after modZeroState).Inv ∧ (after modZeroState).runState = .halted ∧ ¬(after modZeroState).endedNormally) :=
  ⟨⟨by decide, by decide⟩, ⟨by decide, by decide⟩, ⟨by decide, by decide⟩, by decide, by decide, by decide⟩

/-- A CALL through register 7, and a later state that kept only the stack pointer and the stacked byte. -/
def calledState : State := did (.call 7) State.reset
def laterState : State := ((calledState.setReg 0 9).emit 1).setPc 0x33

theorem witness_ReturnResumesAfterTheCall : namesReg 7#8 7 ∧ exec (.call 7) State.reset = .next calledState ∧
    laterState.sp = calledState.sp ∧ laterState.memRead calledState.sp = calledState.memRead calledState.sp :=
  ⟨by decide, rfl, by decide, by decide⟩

def callState : State := State.reset.withFetchWord 24 0x000050

theorem witness_StoredByteIsSeenByTheNextFetch_push : namesReg 7#8 7 ∧ step pushState = .next (after pushState) ∧
    decode pushState.fetch = .ok (.push 7) := ⟨by decide, rfl, by decide⟩
theorem witness_StoredByteIsSeenByTheNextFetch_call : namesReg 0#8 0 ∧ step callState = .next (after callState) ∧
    decode callState.fetch = .ok (.call 0) := ⟨by decide, rfl, by decide⟩
theorem witness_PopLoadsTheByteAtTheStackPointer : namesReg 7#8 7 ∧ namesReg 6#8 6 ∧ (6 : RegIdx) ≠ 7 := by decide
theorem witness_JeqAndJneFollowTheEqualFlag : namesReg 7#8 7 ∧ State.reset.fl.E = false ∧
    (State.reset.setFl ⟨true, false, false⟩).fl.E = true := by decide

end Sys2Proof.Tests
end

section
/-! PROOFS. Statements about the flags and the output channel (`10_state.md` R32, R41). Each has a one-run part, read off
`exec_next`, and a two-run part. The two-run parts share one simulation: a relation that every update of the state keeps, between
states that agree on what the core reads, is kept by every step. -/

namespace Sys2Proof.Machine

/-! ### One run: what an operation does to the run state, the flags and the output -/

theorem Operated.runState_eq {s u : State} {i : Instr} (h : Operated s i u) : u.runState = s.runState := by
  cases i with
  | hlt => exact h.elim
  | ret => cases h; rfl
  | push a | pop a | prn a | call a | jmp a | jeq a | jne a | not a | ldi a imm => obtain ⟨ra, -, rfl⟩ := h; rfl
  | add a b | sub a b | mul a b | cmp a b | and a b | or a b | xor a b | shl a b | shr a b =>
    obtain ⟨ra, rb, -, -, rfl⟩ := h; rfl
  | mod a b => obtain ⟨ra, rb, -, -, -, rfl⟩ := h; rfl

/-- An operation other than CMP's keeps the flags (R32). -/
theorem Operated.fl_eq_or_cmp {s u : State} {i : Instr} (h : Operated s i u) :
    u.fl = s.fl ∨ ∃ a b, i = .cmp a b := by
  cases i with
  | hlt => exact h.elim
  | ret => cases h; exact .inl rfl
  | push a | pop a | prn a | call a | jmp a | jeq a | jne a | not a | ldi a imm =>
    obtain ⟨ra, -, rfl⟩ := h; exact .inl rfl
  | add a b | sub a b | mul a b | and a b | or a b | xor a b | shl a b | shr a b =>
    obtain ⟨ra, rb, -, -, rfl⟩ := h; exact .inl rfl
  | mod a b => obtain ⟨ra, rb, -, -, -, rfl⟩ := h; exact .inl rfl
  | cmp a b => exact .inr ⟨a, b, rfl⟩

/-- PRN's operation appends its register to the output, any other keeps it (R41). -/
theorem Operated.out_cases {s u : State} {i : Instr} (h : Operated s i u) :
    (∃ a r, i = .prn a ∧ namesReg a r ∧ u.out = s.out ++ [s.reg r]) ∨ (u.out = s.out ∧ ∀ a, i ≠ .prn a) := by
  cases i with
  | hlt => exact h.elim
  | ret => cases h; exact .inr ⟨rfl, nofun⟩
  | prn a => obtain ⟨ra, ha, rfl⟩ := h; exact .inl ⟨a, ra, rfl, ha, rfl⟩
  | push a | pop a | call a | jmp a | jeq a | jne a | not a | ldi a imm =>
    obtain ⟨ra, -, rfl⟩ := h; exact .inr ⟨rfl, nofun⟩
  | add a b | sub a b | mul a b | cmp a b | and a b | or a b | xor a b | shl a b | shr a b =>
    obtain ⟨ra, rb, -, -, rfl⟩ := h; exact .inr ⟨rfl, nofun⟩
  | mod a b => obtain ⟨ra, rb, -, -, -, rfl⟩ := h; exact .inr ⟨rfl, nofun⟩

/-- A PRN that enters a terminal state has an illegal register byte. -/
theorem Stopped.gt_of_prn {s : State} {a : Byte} {r : StopRecord} (h : Stopped s (.prn a) r) : 7 < a.toNat := by
  rcases h with ⟨hi, -⟩ | ⟨hwf, -, -⟩ | ⟨_, _, _, _, hi, -⟩
  · cases hi
  · simpa [Instr.wf, isRegByte] using hwf
  · cases hi

theorem decode_ne_ok_of_unknown {f : Fetched} (h : mnemonicOf f.op = none) (i : Instr) : decode f ≠ .ok i := by
  rw [decode_eq_error.mpr ⟨h, rfl⟩]
  nofun

/-- CMP with legal register bytes writes the comparison of the two registers and advances. -/
theorem exec_cmp_of_namesReg {a b : Byte} {ra rb : RegIdx} (ha : namesReg a ra) (hb : namesReg b rb) (s : State) :
    exec (.cmp a b) s = .next ((s.setFl (compareFlags (s.reg ra) (s.reg rb))).advance (opcode .cmp)) := by
  simp only [exec, execCmp, onRegs_of_namesReg ha hb, perform]

/-- A step that changes the flags stays running and runs CMP. -/
theorem step_fl_ne {s t : State} (h : step s = .next t) (hfl : t.fl ≠ s.fl) :
    t.runState = .running ∧ ∃ a b, decode s.fetch = .ok (.cmp a b) := by
  obtain ⟨hrun, ⟨i, hi, hexec⟩ | ⟨-, rfl⟩⟩ := step_next h
  · obtain ⟨r, -, rfl⟩ | ⟨u, hu, rfl⟩ := exec_next hexec
    · exact absurd rfl hfl
    · obtain hkept | ⟨a, b, rfl⟩ := hu.fl_eq_or_cmp
      · exact absurd (by simpa using hkept) hfl
      · exact ⟨by simpa [hrun] using hu.runState_eq, a, b, hi⟩
  · exact absurd rfl hfl

/-- A step runs PRN of a legal register and appends its byte, or keeps the output and runs no such PRN. -/
theorem step_out_cases {s t : State} (h : step s = .next t) :
    (∃ a r, decode s.fetch = .ok (.prn a) ∧ namesReg a r ∧ t.out = s.out ++ [s.reg r]) ∨
    (t.out = s.out ∧ ∀ a, decode s.fetch = .ok (.prn a) → 7 < a.toNat) := by
  obtain ⟨-, ⟨i, hi, hexec⟩ | ⟨hunk, rfl⟩⟩ := step_next h
  · obtain ⟨r, hr, rfl⟩ | ⟨u, hu, rfl⟩ := exec_next hexec
    · refine .inr ⟨rfl, fun a ha => ?_⟩
      cases hi.symm.trans ha
      exact hr.gt_of_prn
    · obtain ⟨a, r, rfl, ha, hout⟩ | ⟨hout, hne⟩ := hu.out_cases
      · exact .inl ⟨a, r, hi, ha, by simpa using hout⟩
      · exact .inr ⟨by simpa using hout, fun a ha => absurd (Except.ok.inj (hi.symm.trans ha)) (hne a)⟩
  · exact .inr ⟨rfl, fun a ha => absurd ha (decode_ne_ok_of_unknown hunk _)⟩

theorem State.loadImage_out {image : List Byte} {s : State} (h : State.loadImage image = some s) : s.out = [] := by
  unfold State.loadImage at h
  split at h
  · cases h; rfl
  · cases h

/-! ### Two runs: relations that every update keeps -/

/-- `R` relates states that agree on the registers, `pc`, memory and the run state, and the same update of two related states
gives two related states. Nothing is asked of the flags and of the output. -/
structure UpdateCongruence (R : State → State → Prop) : Prop where
  regs_eq {s s' : State} : R s s' → s'.regs = s.regs
  pc_eq {s s' : State} : R s s' → s'.pc = s.pc
  mem_eq {s s' : State} : R s s' → s'.mem = s.mem
  runState_eq {s s' : State} : R s s' → s'.runState = s.runState
  setReg {s s' : State} : R s s' → ∀ r v, R (s.setReg r v) (s'.setReg r v)
  setPc {s s' : State} : R s s' → ∀ v, R (s.setPc v) (s'.setPc v)
  setFl {s s' : State} : R s s' → ∀ f, R (s.setFl f) (s'.setFl f)
  memWrite {s s' : State} : R s s' → ∀ a v, R (s.memWrite a v) (s'.memWrite a v)
  emit {s s' : State} : R s s' → ∀ v, R (s.emit v) (s'.emit v)
  stop {s s' : State} : R s s' → ∀ r, R (s.stop r) (s'.stop r)

/-- Two operations raise the same fault, or leave related states. -/
inductive SameAnswer (R : State → State → Prop) : Except StopRecord State → Except StopRecord State → Prop where
  | error (r : StopRecord) : SameAnswer R (.error r) (.error r)
  | ok {u u' : State} : R u u' → SameAnswer R (.ok u) (.ok u')

/-- Two outcomes are next states and related. -/
def Lockstep (R : State → State → Prop) (o o' : Host.Outcome State Fault Refusal) : Prop :=
  ∃ t t', o = .next t ∧ o' = .next t' ∧ R t t'

theorem onReg_sameAnswer {R : State → State → Prop} {f f' : RegIdx → Except StopRecord State} (a : Byte)
    (hf : ∀ ra, SameAnswer R (f ra) (f' ra)) : SameAnswer R (onReg a f) (onReg a f') := by
  rcases reg_cases a with ⟨ra, ha, -⟩ | ⟨ha, -⟩
  · rw [onReg_of_namesReg ha, onReg_of_namesReg ha]
    exact hf ra
  · rw [onReg_of_gt ha, onReg_of_gt ha]
    exact .error _

theorem onRegs_sameAnswer {R : State → State → Prop} {f f' : RegIdx → RegIdx → Except StopRecord State} (a b : Byte)
    (hf : ∀ ra rb, SameAnswer R (f ra rb) (f' ra rb)) : SameAnswer R (onRegs a b f) (onRegs a b f') :=
  onReg_sameAnswer a fun ra => onReg_sameAnswer b (hf ra)

namespace UpdateCongruence

variable {R : State → State → Prop} (C : UpdateCongruence R) {s s' : State} (h : R s s')
include C h

theorem reg_eq (r : RegIdx) : s'.reg r = s.reg r := by simp only [State.reg, C.regs_eq h]

theorem sp_eq : s'.sp = s.sp := C.reg_eq h _

theorem memRead_eq (a : Byte) : s'.memRead a = s.memRead a := by simp only [State.memRead, C.mem_eq h]

theorem pcPlus2_eq : s'.pcPlus2 = s.pcPlus2 := by simp only [State.pcPlus2, C.pc_eq h]

theorem fetch_eq : s'.fetch = s.fetch := by simp only [State.fetch, C.pc_eq h, C.memRead_eq h]

theorem decSp : R s.decSp s'.decSp := by
  simp only [State.decSp, C.sp_eq h]
  exact C.setReg h _ _

theorem incSp : R s.incSp s'.incSp := by
  simp only [State.incSp, C.sp_eq h]
  exact C.setReg h _ _

theorem advance (op : Byte) : R (s.advance op) (s'.advance op) := by
  simp only [State.advance, C.pc_eq h]
  split
  · exact h
  · exact C.setPc h _

theorem branchIf {c c' : Bool} (hc : c' = c) (ra : RegIdx) : R (branchIf c ra s) (branchIf c' ra s') := by
  simp only [Machine.branchIf, hc, C.reg_eq h, C.pcPlus2_eq h]
  exact C.setPc h _

theorem perform {r r' : Except StopRecord State} (m : Mnemonic) (hr : SameAnswer R r r') :
    Lockstep R (perform m r s) (perform m r' s') := by
  cases hr with
  | error e => exact ⟨_, _, rfl, rfl, C.stop h e⟩
  | ok hu => exact ⟨_, _, rfl, rfl, C.advance hu _⟩

theorem aluBinary (f : Byte → Byte → Byte) (a b : Byte) : SameAnswer R (aluBinary f a b s) (aluBinary f a b s') :=
  onRegs_sameAnswer a b fun ra rb => .ok <| by
    simp only [C.reg_eq h]
    exact C.setReg h _ _

/-- From related states an instruction does the same, if they agree on the Equal flag or it is neither JEQ nor JNE. -/
theorem exec (i : Instr) (hE : s'.fl.E = s.fl.E ∨ ∀ a, i ≠ .jeq a ∧ i ≠ .jne a) : Lockstep R (exec i s) (exec i s') := by
  cases i with
  | hlt => exact ⟨_, _, rfl, rfl, C.stop h _⟩
  | ret =>
    refine C.perform h .ret (.ok (C.incSp ?_))
    rw [C.sp_eq h, C.memRead_eq h]
    exact C.setPc h _
  | push a =>
    have hd := C.decSp h
    refine C.perform h .push (onReg_sameAnswer a fun ra => .ok ?_)
    rw [C.sp_eq hd, C.reg_eq hd]
    exact C.memWrite hd _ _
  | pop a =>
    refine C.perform h .pop (onReg_sameAnswer a fun ra => .ok (C.incSp ?_))
    rw [C.sp_eq h, C.memRead_eq h]
    exact C.setReg h _ _
  | prn a =>
    refine C.perform h .prn (onReg_sameAnswer a fun ra => .ok ?_)
    rw [C.reg_eq h]
    exact C.emit h _
  | call a =>
    have hd := C.decSp h
    refine C.perform h .call (onReg_sameAnswer a fun ra => .ok ?_)
    rw [C.sp_eq hd, C.pcPlus2_eq hd, State.reg_memWrite, State.reg_memWrite, C.reg_eq hd]
    exact C.setPc (C.memWrite hd _ _) _
  | jmp a =>
    refine C.perform h .jmp (onReg_sameAnswer a fun ra => .ok ?_)
    rw [C.reg_eq h]
    exact C.setPc h _
  | jeq a =>
    have hc : s'.equalFlag = s.equalFlag := hE.resolve_right fun hne => (hne a).1 rfl
    exact C.perform h .jeq (onReg_sameAnswer a fun ra => .ok (C.branchIf h hc ra))
  | jne a =>
    have hc : s'.equalFlag = s.equalFlag := hE.resolve_right fun hne => (hne a).2 rfl
    exact C.perform h .jne (onReg_sameAnswer a fun ra => .ok (C.branchIf h (congrArg _ hc) ra))
  | not a =>
    refine C.perform h .not (onReg_sameAnswer a fun ra => .ok ?_)
    rw [C.reg_eq h]
    exact C.setReg h _ _
  | ldi a imm => exact C.perform h .ldi (onReg_sameAnswer a fun ra => .ok (C.setReg h ra imm))
  | add a b | sub a b | mul a b | and a b | or a b | xor a b | shl a b | shr a b =>
    exact C.perform h _ (C.aluBinary h _ a b)
  | cmp a b =>
    refine C.perform h .cmp (onRegs_sameAnswer a b fun ra rb => .ok ?_)
    rw [C.reg_eq h, C.reg_eq h]
    exact C.setFl h _
  | mod a b =>
    refine C.perform h .mod (onRegs_sameAnswer a b fun ra rb => ?_)
    rw [C.reg_eq h, C.reg_eq h]
    split
    · exact .error _
    · exact .ok (C.setReg h _ _)

/-- From related running states a step does the same, under the condition of `exec`. -/
theorem step (hrun : s.runState = .running)
    (hE : s'.fl.E = s.fl.E ∨ ∀ a, decode s.fetch ≠ .ok (.jeq a) ∧ decode s.fetch ≠ .ok (.jne a)) :
    Lockstep R (step s) (step s') := by
  simp only [Machine.step, C.runState_eq h, hrun, C.fetch_eq h]
  cases hd : decode s.fetch with
  | ok i =>
    simp only [hd, ne_eq, Except.ok.injEq] at hE
    exact C.exec h i hE
  | error e =>
    cases e
    exact ⟨_, _, rfl, rfl, C.stop h _⟩

end UpdateCongruence

/-! ### The two relations: all but the flags, all but what the output held before -/

/-- `t` is `s` with nothing but the flags replaced. -/
def SameButFlags (s t : State) : Prop := ∃ f, t = { s with fl := f }

theorem sameButFlags_updateCongruence : UpdateCongruence SameButFlags where
  regs_eq := by rintro s _ ⟨f, rfl⟩; rfl
  pc_eq := by rintro s _ ⟨f, rfl⟩; rfl
  mem_eq := by rintro s _ ⟨f, rfl⟩; rfl
  runState_eq := by rintro s _ ⟨f, rfl⟩; rfl
  setReg := by rintro s _ ⟨f, rfl⟩ r v; exact ⟨f, rfl⟩
  setPc := by rintro s _ ⟨f, rfl⟩ v; exact ⟨f, rfl⟩
  setFl := by rintro s _ ⟨f, rfl⟩ g; exact ⟨g, rfl⟩
  memWrite := by rintro s _ ⟨f, rfl⟩ a v; exact ⟨f, rfl⟩
  emit := by rintro s _ ⟨f, rfl⟩ v; exact ⟨f, rfl⟩
  stop := by rintro s _ ⟨f, rfl⟩ r; exact ⟨f, rfl⟩

/-- `s` and `t` have emitted the same bytes, `s` after `o` and `t` after `o'`, and agree in everything else. -/
def SameButOutputBefore (o o' : List Byte) (s t : State) : Prop :=
  ∃ v, s.out = o ++ v ∧ t = { s with out := o' ++ v }

/-- Emitting once more keeps the relation: the byte goes to the end of what both have emitted. -/
theorem SameButOutputBefore.emit {o o' : List Byte} {s t : State} (h : SameButOutputBefore o o' s t) (x : Byte) :
    SameButOutputBefore o o' (s.emit x) (t.emit x) := by
  obtain ⟨v, hv, rfl⟩ := h
  exact ⟨v ++ [x], by simp [hv], by simp [State.emit]⟩

theorem sameButOutputBefore_updateCongruence (o o' : List Byte) : UpdateCongruence (SameButOutputBefore o o') where
  regs_eq := by rintro s _ ⟨v, -, rfl⟩; rfl
  pc_eq := by rintro s _ ⟨v, -, rfl⟩; rfl
  mem_eq := by rintro s _ ⟨v, -, rfl⟩; rfl
  runState_eq := by rintro s _ ⟨v, -, rfl⟩; rfl
  setReg := by rintro s _ ⟨v, hv, rfl⟩ r x; exact ⟨v, hv, rfl⟩
  setPc := by rintro s _ ⟨v, hv, rfl⟩ x; exact ⟨v, hv, rfl⟩
  setFl := by rintro s _ ⟨v, hv, rfl⟩ f; exact ⟨v, hv, rfl⟩
  memWrite := by rintro s _ ⟨v, hv, rfl⟩ a x; exact ⟨v, hv, rfl⟩
  emit := SameButOutputBefore.emit
  stop := by rintro s _ ⟨v, hv, rfl⟩ r; exact ⟨v, hv, rfl⟩

/-- With other flags a step does the same but for the flags, if Equal is the same or the instruction does not read it. -/
theorem step_with_other_flags {s t : State} {f : Flags} (h : step s = .next t)
    (hE : f.E = s.fl.E ∨ ∀ a, decode s.fetch ≠ .ok (.jeq a) ∧ decode s.fetch ≠ .ok (.jne a)) :
    ∃ t', step { s with fl := f } = .next t' ∧ SameButFlags t t' := by
  obtain ⟨u, t', hu, ht', hsame⟩ :=
    sameButFlags_updateCongruence.step (s' := { s with fl := f }) ⟨f, rfl⟩ (step_next h).1 hE
  cases h.symm.trans hu
  exact ⟨t', ht', hsame⟩

/-- With another output a step does the same and appends the same bytes. -/
theorem step_with_other_output {s t : State} (o : List Byte) (h : step s = .next t) :
    ∃ v, t.out = s.out ++ v ∧ step { s with out := o } = .next { t with out := o ++ v } := by
  have hstart : SameButOutputBefore s.out o s { s with out := o } := ⟨[], by simp, by simp⟩
  obtain ⟨u, t', hu, ht', v, hv, rfl⟩ :=
    (sameButOutputBefore_updateCongruence s.out o).step hstart (step_next h).1 (.inl rfl)
  cases h.symm.trans hu
  exact ⟨v, hv, ht'⟩

/-! ### The statements -/

/-- Settles O16: the one-run part from `step_fl_ne`, the two-run part from the simulation with `SameButFlags`. -/
theorem onlyCmpWritesFlagsAndOnlyJeqJneReadThem : Obligations.OnlyCmpWritesFlagsAndOnlyJeqJneReadThem := by
  refine ⟨fun s t => step_fl_ne, fun s f a b ra rb ha hb => ?_, fun s t f h hE => ?_⟩
  · refine ⟨_, _, exec_cmp_of_namesReg ha hb s, exec_cmp_of_namesReg ha hb { s with fl := f }, ?_⟩
    rw [State.advance_fl, State.advance_fl]
    rfl
  · obtain ⟨t', ht', g, rfl⟩ := step_with_other_flags h hE
    exact ⟨_, ht', rfl⟩

/-- Settles O19: the growth from `step_out_cases`, the independence from the simulation with `SameButOutputBefore`. -/
theorem outputGrowsByOneBytePerPrnAndIsNeverRead : Obligations.OutputGrowsByOneBytePerPrnAndIsNeverRead :=
  ⟨rfl, fun _ _ => State.loadImage_out, fun _ _ => step_out_cases, fun _ _ o => step_with_other_output o⟩

end Sys2Proof.Machine
end

section
/-! PROOFS. Statements about the encoding: the operand bytes outside an instruction have no effect (`30_encoding.md` R76).
Decoding and the check of register bytes are functions of the bytes the format uses, and only an ill-formed instruction can end
a run in `fatalError`. -/

namespace Sys2Proof

/-! ### The operand bytes a format uses -/

theorem withOperands_of_format_z {m : Mnemonic} (h : m.format = .z) (a b a' b' : Byte) :
    withOperands m a b = withOperands m a' b' := by
  cases m with
  | hlt | ret => rfl
  | _ => cases h

theorem withOperands_of_format_r {m : Mnemonic} (h : m.format = .r) (a b b' : Byte) :
    withOperands m a b = withOperands m a b' := by
  cases m with
  | push | pop | prn | call | jmp | jeq | jne | not => rfl
  | _ => cases h

theorem wf_withOperands_of_format_z {m : Mnemonic} (h : m.format = .z) (a b : Byte) :
    (withOperands m a b).wf = true := by
  cases m with
  | hlt | ret => rfl
  | _ => cases h

theorem wf_withOperands_of_format_r {m : Mnemonic} (h : m.format = .r) (a b : Byte) :
    (withOperands m a b).wf = isRegByte a := by
  cases m with
  | push | pop | prn | call | jmp | jeq | jne | not => rfl
  | _ => cases h

theorem decode_of_mnemonicOf {op : Byte} {m : Mnemonic} (h : mnemonicOf op = some m) (a b : Byte) :
    decode ⟨op, a, b⟩ = .ok (withOperands m a b) := by
  simp [decode_eq_ok, mnemonicOf_eq_some.mp h]

end Sys2Proof

namespace Sys2Proof.Machine

/-! ### A step of an instruction with legal register bytes -/

theorem step_of_decode {s : State} {i : Instr} (hrun : s.runState = .running) (hd : decode s.fetch = .ok i) :
    step s = exec i s := by
  simp only [step, hrun, hd]

/-- A well-formed instruction that enters a terminal state enters `halted`: it is HLT or a MOD by zero. -/
theorem Stopped.runState_of_wf {s : State} {i : Instr} {r : StopRecord} (h : Stopped s i r) (hwf : i.wf = true) :
    r.cause.runState = .halted := by
  rcases h with ⟨-, rfl⟩ | ⟨hill, -, -⟩ | ⟨_, _, _, _, -, -, -, -, rfl⟩
  · rfl
  · cases hill.symm.trans hwf
  · rfl

theorem exec_runState_ne_fatalError {s t : State} {i : Instr} (hrun : s.runState = .running) (hwf : i.wf = true)
    (h : exec i s = .next t) : t.runState ≠ .fatalError := by
  obtain ⟨r, hr, rfl⟩ | ⟨u, hu, rfl⟩ := exec_next h
  · simp [hr.runState_of_wf hwf]
  · simp [hu.runState_eq, hrun]

/-- Where other operand bytes give the same instruction, decoding and the step do not tell them apart, and only an
ill-formed register byte among them can end the step in `fatalError`. -/
theorem step_of_withOperands_eq {op a b a' b' : Byte} {m : Mnemonic} {s : State} (hm : mnemonicOf op = some m)
    (hsame : withOperands m a b = withOperands m a' b') :
    decode ⟨op, a, b⟩ = decode ⟨op, a', b'⟩ ∧
    (s.runState = .running → s.fetch = ⟨op, a, b⟩ →
      step s = exec (withOperands m a' b') s ∧
        ((withOperands m a' b').wf = true → ∀ t, step s = .next t → t.runState ≠ .fatalError)) := by
  have hdec := decode_of_mnemonicOf hm
  refine ⟨by rw [hdec, hdec, hsame], fun hrun hf => ?_⟩
  have hstep : step s = exec (withOperands m a' b') s := step_of_decode hrun (by rw [hf, hdec, hsame])
  exact ⟨hstep, fun hwf t ht => exec_runState_ne_fatalError hrun hwf (hstep.symm.trans ht)⟩

/-! ### The statement -/

/-- Settles O5: a format `Z` or `R` instruction is the same whatever its ignored bytes are, and its well-formedness does
not depend on them. -/
theorem ignoredOperandBytesHaveNoEffect : Obligations.IgnoredOperandBytesHaveNoEffect := by
  intro m op a b a' b' s hm
  refine ⟨fun hz => ?_, fun hr => ?_⟩
  · obtain ⟨hdec, hstep⟩ := step_of_withOperands_eq (s := s) hm (withOperands_of_format_z hz a b a' b')
    exact ⟨hdec, fun hrun hf => (hstep hrun hf).imp_right fun hsafe => hsafe (wf_withOperands_of_format_z hz a' b')⟩
  · obtain ⟨hdec, hstep⟩ := step_of_withOperands_eq (s := s) hm (withOperands_of_format_r hr a b b')
    refine ⟨hdec, fun hrun hf => (hstep hrun hf).imp_right fun hsafe ha => hsafe ?_⟩
    rw [wf_withOperands_of_format_r hr, isRegByte, decide_eq_true ha]

end Sys2Proof.Machine
end

section
/-! PROOFS. Statements about the stack (`41_stack_call.md`): what PUSH, POP, CALL and RET answer when the register byte is
legal, and the stack pointer, modulo 256, in those answers. -/

namespace Sys2Proof.Machine

/-! ### The stack pointer after an update -/

@[simp] theorem State.sp_setPc (s : State) (v : Byte) : (s.setPc v).sp = s.sp := rfl

@[simp] theorem State.sp_memWrite (s : State) (a v : Byte) : (s.memWrite a v).sp = s.sp := rfl

@[simp] theorem State.sp_advance (s : State) (op : Byte) : (s.advance op).sp = s.sp := State.reg_advance s _ op

theorem State.sp_setReg_of_ne (s : State) {r : RegIdx} (v : Byte) (h : r ≠ Config.spIndex) :
    (s.setReg r v).sp = s.sp := by
  rw [State.sp, State.reg_setReg, if_neg h.symm, State.sp]

theorem State.reg_incSp_of_ne (s : State) {r : RegIdx} (h : r ≠ Config.spIndex) : s.incSp.reg r = s.reg r := by
  rw [State.incSp, State.reg_setSp, if_neg h]

theorem State.toNat_sp_decSp (s : State) : s.decSp.sp.toNat = (s.sp.toNat + 255) % 256 := by
  rw [State.sp_decSp, BitVec.toNat_sub, Nat.add_comm]
  rfl

theorem State.toNat_sp_incSp (s : State) : s.incSp.sp.toNat = (s.sp.toNat + 1) % 256 := by
  rw [State.sp_incSp, BitVec.toNat_add]
  rfl

theorem StatusKept.advance {s u : State} (h : StatusKept s u) (op : Byte) : StatusKept s (u.advance op) := by
  simpa [StatusKept] using h

/-! ### What the four instructions answer -/

theorem exec_push_of_namesReg {a : Byte} {ra : RegIdx} (ha : namesReg a ra) (s : State) :
    exec (.push a) s = .next ((s.decSp.memWrite s.decSp.sp (s.decSp.reg ra)).advance (opcode .push)) := by
  simp only [exec, execPush, onReg_of_namesReg ha, perform]

theorem exec_pop_of_namesReg {a : Byte} {ra : RegIdx} (ha : namesReg a ra) (s : State) :
    exec (.pop a) s = .next ((s.setReg ra (s.memRead s.sp)).incSp.advance (opcode .pop)) := by
  simp only [exec, execPop, onReg_of_namesReg ha, perform]

/-- CALL sets `pc` itself, so the advance adds nothing (R154). -/
theorem exec_call_of_namesReg {a : Byte} {ra : RegIdx} (ha : namesReg a ra) (s : State) :
    exec (.call a) s = .next ((s.decSp.memWrite s.decSp.sp s.pcPlus2).setPc (s.decSp.reg ra)) := by
  simp only [exec, execCall, onReg_of_namesReg ha, perform]
  rfl

/-- RET sets `pc` itself, so the advance adds nothing (R154). -/
theorem exec_ret (s : State) : exec .ret s = .next (s.setPc (s.memRead s.sp)).incSp := rfl

/-! ### The statement -/

/-- Settles O42: the answers above, each with the stack pointer of its `decSp` or `incSp`. -/
theorem stackPointerWrapsWithoutAnyFault : Obligations.StackPointerWrapsWithoutAnyFault := by
  intro s a ra ha
  refine ⟨⟨_, exec_push_of_namesReg ha s, ?_, StatusKept.advance ⟨rfl, rfl, rfl⟩ _⟩,
    ⟨_, exec_call_of_namesReg ha s, s.toNat_sp_decSp, rfl, rfl, rfl⟩,
    ⟨_, exec_pop_of_namesReg ha s, StatusKept.advance ⟨rfl, rfl, rfl⟩ _, fun hne => ⟨?_, ?_⟩⟩,
    ⟨_, exec_ret s, State.toNat_sp_incSp _, rfl, rfl, rfl, rfl⟩⟩
  · rw [State.sp_advance, State.sp_memWrite, State.toNat_sp_decSp]
  · rw [State.sp_advance, State.toNat_sp_incSp, State.sp_setReg_of_ne s _ hne]
  · rw [State.reg_advance, State.reg_incSp_of_ne _ hne, State.reg_setReg_same]

end Sys2Proof.Machine
end

section
/-! PROOFS. Statements about the execution loop (`44_execution_loop.md`): the two terminal states, where no step is enabled
(R159), so nothing but the state itself is reached from them. -/

namespace Sys2Proof.Machine

/-! ### A terminal state -/

theorem step_of_not_running {s : State} (hrun : s.runState ≠ .running) : step s = .fault (.runOver s.runState) := by
  unfold step
  cases hs : s.runState with
  | running => exact absurd hs hrun
  | halted | fatalError => rfl

/-- Every step of a run is taken while running (`step_next`), so a run from a terminal state takes none. -/
theorem Reaches.eq_of_not_running {s t : State} (hrun : s.runState ≠ .running) (h : Reaches s t) : t = s := by
  induction h with
  | refl => rfl
  | step _ hstep ih =>
    subst ih
    exact absurd (step_next hstep).1 hrun

/-! ### The statement -/

/-- Settles O9: the answer of `step` in a terminal state, and induction over the run from it. -/
theorem terminalStatesTakeNoStep : Obligations.TerminalStatesTakeNoStep :=
  fun _ hrun => ⟨step_of_not_running hrun, fun _ => Reaches.eq_of_not_running hrun⟩

end Sys2Proof.Machine
end

section
/-! PROOFS. Statements about reset with an image (`70_reset_and_hazards.md` R200 to R203): what a load leaves in the state, and
what its memory reads where the image lies. -/

namespace Sys2Proof.Machine

/-! ### A load -/

theorem State.loadImage_eq_some {image : List Byte} {s : State} :
    State.loadImage image = some s ↔
      image.length ≤ Config.memSize ∧ s = { State.reset with mem := Memory.ofImageAt 0 image } := by
  simp [State.loadImage, eq_comm]

/-- Byte `k` of a loaded image lies within memory, at address `k` (R203). -/
theorem State.memRead_of_loadImage {image : List Byte} {s : State} (h : State.loadImage image = some s) {k : Nat} {v : Byte}
    (hv : image[k]? = some v) : k < Config.memSize ∧ s.memRead (BitVec.ofNat 8 k) = v := by
  obtain ⟨hlen, rfl⟩ := State.loadImage_eq_some.mp h
  have hk : k < Config.memSize := (List.getElem?_eq_some_iff.mp hv).1.trans_le hlen
  have haddr : (BitVec.ofNat 8 k).toNat = k := Nat.mod_eq_of_lt hk
  refine ⟨hk, ?_⟩
  rw [State.memRead, Memory.read_ofImage, haddr, List.getD_eq_getElem?_getD, hv, Option.getD_some]

/-! ### The statement -/

/-- Settles O12: a load changes nothing but memory in the reset state, and the first opcode is byte 0 of its memory. -/
theorem loadedImageIsMemoryAndTheEntryPointIsZero : Obligations.LoadedImageIsMemoryAndTheEntryPointIsZero := by
  intro image s h
  obtain ⟨hrun, hpc⟩ : s.runState = .running ∧ s.pc = 0x00#8 := by
    obtain ⟨-, rfl⟩ := State.loadImage_eq_some.mp h
    exact ⟨rfl, rfl⟩
  refine ⟨hrun, hpc, fun v hv => ?_, fun k v => State.memRead_of_loadImage h⟩
  rw [State.fetch, hpc]
  exact (State.memRead_of_loadImage h hv).2

end Sys2Proof.Machine
end

section
/-! PROOFS. What one instruction answers, read in the other direction than `exec_next`: an operation that raises no fault is
followed by the advance, an illegal register byte is the index fault whatever the state holds, and there is always an answer. -/

namespace Sys2Proof.Machine

/-! ### An illegal register byte -/

theorem perform_onReg_of_gt {a : Byte} (ha : 7 < a.toNat) (m : Mnemonic) (f : RegIdx → Except StopRecord State) (s : State) :
    perform m (onReg a f) s = .next (s.stop ⟨.invalidRegisterIndex, a⟩) := by
  rw [onReg_of_gt ha, perform]

/-- The second byte is looked at only when the first is legal (R75). -/
theorem perform_onRegs_of_le_of_gt {a b : Byte} (ha : a.toNat ≤ 7) (hb : 7 < b.toNat) (m : Mnemonic)
    (f : RegIdx → RegIdx → Except StopRecord State) (s : State) :
    perform m (onRegs a b f) s = .next (s.stop ⟨.invalidRegisterIndex, b⟩) := by
  have hra : a.toNat = (⟨a.toNat, Nat.lt_succ_of_le ha⟩ : RegIdx).val := rfl
  rw [onRegs, onReg_of_namesReg hra, perform_onReg_of_gt hb]

theorem exec_withOperands_of_gt {m : Mnemonic} {a : Byte} (hm : m.format ≠ .z) (ha : 7 < a.toNat) (b : Byte) (s : State) :
    exec (withOperands m a b) s = .next (s.stop ⟨.invalidRegisterIndex, a⟩) := by
  cases m with
  | hlt | ret => exact absurd rfl hm
  | _ => exact perform_onReg_of_gt ha _ _ s

theorem exec_withOperands_of_le_of_gt {m : Mnemonic} {a b : Byte} (hm : m.format = .rr) (ha : a.toNat ≤ 7)
    (hb : 7 < b.toNat) (s : State) : exec (withOperands m a b) s = .next (s.stop ⟨.invalidRegisterIndex, b⟩) := by
  cases m with
  | add | sub | mul | mod | cmp | and | or | xor | shl | shr => exact perform_onRegs_of_le_of_gt ha hb _ _ s
  | _ => cases hm

theorem gt_of_isRegByte_eq_false {v : Byte} (h : isRegByte v = false) : 7 < v.toNat := by
  simpa [isRegByte] using h

/-- An ill-formed instruction takes the index fault with the same byte in every state. -/
theorem exec_of_not_wf {i : Instr} (hwf : i.wf = false) :
    ∃ v : Byte, 7 < v.toNat ∧ ∀ s, exec i s = .next (s.stop ⟨.invalidRegisterIndex, v⟩) := by
  cases i with
  | hlt | ret => cases hwf
  | push a | pop a | prn a | call a | jmp a | jeq a | jne a | not a | ldi a imm =>
    have ha := gt_of_isRegByte_eq_false hwf
    exact ⟨a, ha, fun s => perform_onReg_of_gt ha _ _ s⟩
  | add a b | sub a b | mul a b | mod a b | cmp a b | and a b | or a b | xor a b | shl a b | shr a b =>
    rcases Nat.lt_or_ge 7 a.toNat with ha | ha
    · exact ⟨a, ha, fun s => perform_onReg_of_gt ha _ _ s⟩
    · have hra : isRegByte a = true := decide_eq_true ha
      have hb : 7 < b.toNat := gt_of_isRegByte_eq_false (by simpa [Instr.wf, hra] using hwf)
      exact ⟨b, hb, fun s => perform_onRegs_of_le_of_gt ha hb _ _ s⟩

/-! ### MOD by zero, and every operation that raises no fault -/

theorem exec_mod_zero {a b : Byte} {ra rb : RegIdx} {s : State} (ha : namesReg a ra) (hb : namesReg b rb)
    (hz : s.reg rb = 0#8) : exec (.mod a b) s = .next (s.stop ⟨.divisionByZero, 0#8⟩) := by
  simp only [exec, execMod, onRegs_of_namesReg ha hb, if_pos hz, perform]

theorem perform_onReg_of_namesReg {a : Byte} {ra : RegIdx} (ha : namesReg a ra) (m : Mnemonic) (f : RegIdx → State)
    (s : State) : perform m (onReg a fun r => .ok (f r)) s = .next ((f ra).advance (opcode m)) := by
  rw [onReg_of_namesReg ha, perform]

theorem perform_onRegs_of_namesReg {a b : Byte} {ra rb : RegIdx} (ha : namesReg a ra) (hb : namesReg b rb) (m : Mnemonic)
    (f : RegIdx → RegIdx → State) (s : State) :
    perform m (onRegs a b fun r q => .ok (f r q)) s = .next ((f ra rb).advance (opcode m)) := by
  rw [onRegs_of_namesReg ha hb, perform]

/-- The converse of the second case of `exec_next`. -/
theorem exec_of_operated {i : Instr} {s u : State} (h : Operated s i u) :
    exec i s = .next (u.advance (opcode i.mnemonic)) := by
  cases i with
  | hlt => exact h.elim
  | ret => cases h; rfl
  | push a | pop a | prn a | call a | jmp a | jeq a | jne a | not a | ldi a imm =>
    obtain ⟨ra, ha, rfl⟩ := h
    exact perform_onReg_of_namesReg ha _ _ s
  | add a b | sub a b | mul a b | cmp a b | and a b | or a b | xor a b | shl a b | shr a b =>
    obtain ⟨ra, rb, ha, hb, rfl⟩ := h
    exact perform_onRegs_of_namesReg ha hb _ _ s
  | mod a b =>
    obtain ⟨ra, rb, ha, hb, hz, rfl⟩ := h
    simp only [exec, execMod, onRegs_of_namesReg ha hb, if_neg hz, perform, Instr.mnemonic]

/-! ### There is always an answer -/

theorem exists_next_of_eq_perform {m : Mnemonic} {r : Except StopRecord State} {s : State}
    {o : Host.Outcome State Fault Refusal} (h : o = perform m r s) : ∃ t, o = .next t := by
  cases r with
  | error e => exact ⟨_, h⟩
  | ok u => exact ⟨_, h⟩

theorem exec_total (i : Instr) (s : State) : ∃ t, exec i s = .next t := by
  cases i with
  | hlt => exact ⟨_, rfl⟩
  | ret => exact ⟨_, exec_ret s⟩
  | _ => exact exists_next_of_eq_perform rfl

theorem step_of_unknown {s : State} (hrun : s.runState = .running) (h : mnemonicOf s.fetch.op = none) :
    step s = .next (s.stop ⟨.unknownOpcode, s.fetch.op⟩) := by
  simp only [step, hrun, decode_eq_error.mpr ⟨h, rfl⟩, raiseDecodeError]

/-! ### What an operation does to memory, `pc` and the fault record -/

/-- Only the operations of PUSH and CALL write memory, one byte at the decremented stack pointer. -/
theorem Operated.mem_cases {s u : State} {i : Instr} (h : Operated s i u) :
    u.mem = s.mem ∨ ((∃ a, i = .push a ∨ i = .call a) ∧ ∃ v, u.mem = s.mem.write s.decSp.sp v) := by
  cases i with
  | hlt => exact h.elim
  | ret => cases h; exact .inl rfl
  | push a => obtain ⟨ra, -, rfl⟩ := h; exact .inr ⟨⟨a, .inl rfl⟩, _, rfl⟩
  | call a => obtain ⟨ra, -, rfl⟩ := h; exact .inr ⟨⟨a, .inr rfl⟩, _, rfl⟩
  | pop a | prn a | jmp a | jeq a | jne a | not a | ldi a imm => obtain ⟨ra, -, rfl⟩ := h; exact .inl rfl
  | add a b | sub a b | mul a b | cmp a b | and a b | or a b | xor a b | shl a b | shr a b =>
    obtain ⟨ra, rb, -, -, rfl⟩ := h; exact .inl rfl
  | mod a b => obtain ⟨ra, rb, -, -, -, rfl⟩ := h; exact .inl rfl

/-- No operation touches the fault record: only `stop` writes it (R181). -/
theorem Operated.record_eq {s u : State} {i : Instr} (h : Operated s i u) : u.cause = s.cause ∧ u.info = s.info := by
  cases i with
  | hlt => exact h.elim
  | ret => cases h; exact ⟨rfl, rfl⟩
  | push a | pop a | prn a | call a | jmp a | jeq a | jne a | not a | ldi a imm =>
    obtain ⟨ra, -, rfl⟩ := h; exact ⟨rfl, rfl⟩
  | add a b | sub a b | mul a b | cmp a b | and a b | or a b | xor a b | shl a b | shr a b =>
    obtain ⟨ra, rb, -, -, rfl⟩ := h; exact ⟨rfl, rfl⟩
  | mod a b => obtain ⟨ra, rb, -, -, -, rfl⟩ := h; exact ⟨rfl, rfl⟩

/-- An operation whose opcode does not say that it sets `pc` leaves it to the advance (R154). -/
theorem Operated.pc_eq {s u : State} {i : Instr} (h : Operated s i u) (hpc : i.mnemonic.setsPc = false) : u.pc = s.pc := by
  cases i with
  | hlt => exact h.elim
  | ret | call a | jmp a | jeq a | jne a => cases hpc
  | push a | pop a | prn a | not a | ldi a imm => obtain ⟨ra, -, rfl⟩ := h; rfl
  | add a b | sub a b | mul a b | cmp a b | and a b | or a b | xor a b | shl a b | shr a b =>
    obtain ⟨ra, rb, -, -, rfl⟩ := h; rfl
  | mod a b => obtain ⟨ra, rb, -, -, -, rfl⟩ := h; rfl

theorem State.toNat_pc_advance {m : Mnemonic} (hm : m.setsPc = false) (u : State) :
    (u.advance (opcode m)).pc.toNat = (u.pc.toNat + (1 + m.format.operandCount)) % 256 := by
  simp [State.advance_opcode, hm]

/-- A terminal state entered by an instruction is not `running`. -/
theorem Stopped.runState_ne {s : State} {i : Instr} {r : StopRecord} (h : Stopped s i r) : r.cause.runState ≠ .running := by
  rcases h with ⟨-, rfl⟩ | ⟨-, -, hr⟩ | ⟨_, _, _, _, -, -, -, -, rfl⟩
  · nofun
  · rw [hr]; nofun
  · nofun

end Sys2Proof.Machine
end

section
/-! PROOFS. Statements about the encoding (`30_encoding.md`): decoding inverts encoding, the opcode table and the decoder's two
fields. -/

namespace Sys2Proof

/-! ### Encoding against decoding -/

theorem encode_getElem?_zero (i : Instr) : (encode i)[0]? = some (opcode i.mnemonic) := by
  cases i <;> rfl

/-- An instruction is at most the three bytes a step fetches (R151). -/
theorem length_encode_le (i : Instr) : (encode i).length ≤ 3 := by
  cases i <;> simp [encode]

/-- Three bytes begin with an instruction's exactly when its opcode and the operand bytes of its format are the first of them. -/
theorem encode_prefix_iff {i : Instr} {op a b : Byte} :
    encode i <+: [op, a, b] ↔ op = opcode i.mnemonic ∧ i = withOperands i.mnemonic a b := by
  cases i with
  | hlt | ret => simp [encode, withOperands, Instr.mnemonic, List.cons_prefix_cons, eq_comm]
  | push v | pop v | prn v | call v | jmp v | jeq v | jne v | not v =>
    simp [encode, withOperands, Instr.mnemonic, List.cons_prefix_cons, eq_comm]
  | ldi v w | add v w | sub v w | mul v w | mod v w | cmp v w | and v w | or v w | xor v w | shl v w | shr v w =>
    simp [encode, withOperands, Instr.mnemonic, List.cons_prefix_cons, eq_comm]

/-- Settles O1: both sides say that the opcode is the instruction's and its operands are the bytes after it. -/
theorem decodeAndEncodeAgree : Obligations.DecodeAndEncodeAgree :=
  fun _ _ => decode_eq_ok.trans encode_prefix_iff.symm

/-- Settles O2: eight closed evaluations of the decoder. -/
theorem wordsOfTheTableDecode : Obligations.WordsOfTheTableDecode := by
  unfold Obligations.WordsOfTheTableDecode
  decide

/-! ### The opcode table and the decoder's fields -/

theorem mnemonicOf_eq_none {op : Byte} : mnemonicOf op = none ↔ op ∉ Mnemonic.all.map opcode := by
  simp only [mnemonicOf, List.find?_eq_none, beq_iff_eq, List.mem_map, not_exists, not_and]

/-- Settles O3: the listed bytes are the opcode table, in its order. -/
theorem exactlyTwentyOneOpcodesAreKnown : Obligations.ExactlyTwentyOneOpcodesAreKnown := by
  intro f
  rw [decode_eq_error, and_iff_left rfl]
  exact mnemonicOf_eq_none

theorem decodeFields_operandCount (op : Byte) : (decodeFields op).operandCount = op.toNat / 64 := by
  have hlt : op.toNat / 64 < 4 := by omega
  rw [decodeFields, BitVec.extractLsb'_toNat, Nat.shiftRight_eq_div_pow]
  exact Nat.mod_eq_of_lt hlt

theorem decodeFields_setsPc_iff (op : Byte) : (decodeFields op).setsPcDirectly = true ↔ op.toNat / 16 % 2 = 1 := by
  rw [decodeFields, BitVec.getLsbD, Nat.testBit_eq_decide_div_mod_eq, decide_eq_true_iff]

/-- Settles O4: bits 7:6 of a byte are its quotient by 64, bit 4 is the parity of its quotient by 16. -/
theorem decoderFieldsAreBitsOfTheOpcode : Obligations.DecoderFieldsAreBitsOfTheOpcode :=
  fun op => ⟨decodeFields_operandCount op, decodeFields_setsPc_iff op⟩

end Sys2Proof
end

section
/-! PROOFS. Statements about the execution loop (`44_execution_loop.md`): a running step runs what stands in memory from `pc` on,
has an answer, and advances by the fields of the opcode. -/

namespace Sys2Proof.Machine

/-! ### The step of what stands at `pc` -/

/-- Byte `k` of the fetch is the byte at `pc + k` (R151). -/
theorem State.fetched_getElem? (s : State) {k : Nat} (hk : k < 3) :
    [s.fetch.op, s.fetch.a, s.fetch.b][k]? = some (s.memRead (s.pc + BitVec.ofNat 8 k)) := by
  interval_cases k
  · simp [State.fetch]
  · rfl
  · rfl

/-- If the bytes of an instruction stand from `pc` on, the fetch decodes to it. -/
theorem decode_fetch_of_encode {s : State} {i : Instr}
    (h : ∀ k v, (encode i)[k]? = some v → s.memRead (s.pc + BitVec.ofNat 8 k) = v) : decode s.fetch = .ok i := by
  refine (decodeAndEncodeAgree i s.fetch).mpr (List.prefix_iff_getElem?.mpr fun k hk => ?_)
  rw [s.fetched_getElem? (hk.trans_le (length_encode_le i)), h k _ (List.getElem?_eq_getElem hk)]

/-- Settles O6: the dispatch of `step`. -/
theorem stepRunsTheDecodedInstruction : Obligations.StepRunsTheDecodedInstruction :=
  fun _ _ => step_of_decode

/-- Settles O7: the bytes from `pc` on are those the step fetches, and they decode to the instruction they encode. -/
theorem stepRunsTheEncodedInstruction : Obligations.StepRunsTheEncodedInstruction :=
  fun _ _ hrun h => step_of_decode hrun (decode_fetch_of_encode h)

/-- Settles O8: the fault entry on the byte at `pc`. -/
theorem unknownOpcodeEndsTheRun : Obligations.UnknownOpcodeEndsTheRun :=
  fun _ => step_of_unknown

/-- Settles O10: a fetch decodes to an instruction, and each has an answer, or to none, and the fault entry is the answer. -/
theorem stepIsTotalWhileRunning : Obligations.StepIsTotalWhileRunning := by
  intro s hrun
  cases hd : decode s.fetch with
  | ok i => rw [step_of_decode hrun hd]; exact exec_total i s
  | error e => exact ⟨_, step_of_unknown hrun (decode_eq_error.mp hd).1⟩

/-- Settles O22: the operation leaves `pc` to the advance, whose length is one more than bits 7:6 of the opcode. -/
theorem advanceFollowsTheOpcodeFields : Obligations.AdvanceFollowsTheOpcodeFields := by
  intro i s t op hop hrun h ht hbit
  obtain rfl : opcode i.mnemonic = op := Option.some.inj ((encode_getElem?_zero i).symm.trans hop)
  have hpc : i.mnemonic.setsPc = false := by
    have hiff := decodeFields_setsPc_iff (opcode i.mnemonic)
    simpa [hbit] using hiff
  obtain ⟨r, hr, rfl⟩ | ⟨u, hu, rfl⟩ := exec_next h
  · exact absurd ht hr.runState_ne
  · rw [State.toNat_pc_advance hpc, hu.pc_eq hpc, ← decodeFields_operandCount, decodeFields_opcode_operandCount, Nat.add_assoc]

end Sys2Proof.Machine
end

section
/-! PROOFS. Statements about memory and the invariant (`20_memory.md`, `10_state.md` sections 4 to 6): canonical memories are
determined by what they read, reset and a load meet the invariant, every step keeps it, and the exit code it fixes. -/

namespace Sys2Proof.Machine

/-! ### A canonical memory is determined by what it reads -/

theorem Memory.mem_of_find {m : Memory} {k : Nat} {v : Byte} (h : m.find k = some v) : (k, v) ∈ m := by
  induction m with
  | nil => cases h
  | cons c rest ih =>
    rw [Memory.find_cons] at h
    split at h
    · next hk =>
      obtain rfl := Option.some.inj h
      exact hk ▸ List.mem_cons_self
    · exact List.mem_cons_of_mem _ (ih h)

/-- The cells of a canonical memory are those that read as a byte other than `Memory.unlisted`. -/
theorem Memory.mem_iff_read {m : Memory} (hm : m.wf) (c : Host.Cell) :
    c ∈ m ↔ c.1 < Config.memSize ∧ c.2 ≠ Memory.unlisted ∧ m.read (BitVec.ofNat 8 c.1) = c.2 := by
  constructor
  · intro hc
    obtain ⟨hlt, hne⟩ := hm.2 c hc
    exact ⟨hlt, hne, Memory.read_of_mem m hm c hc⟩
  · rintro ⟨hlt, hne, hread⟩
    have haddr : (BitVec.ofNat 8 c.1).toNat = c.1 := Nat.mod_eq_of_lt hlt
    rw [Memory.read, haddr] at hread
    cases hf : m.find c.1 with
    | none => exact absurd (by simpa [hf] using hread.symm) hne
    | some v =>
      obtain rfl : v = c.2 := by simpa [hf] using hread
      exact Memory.mem_of_find hf

theorem Memory.nodup_of_wf {m : Memory} (hm : m.wf) : m.Nodup :=
  hm.1.imp fun hlt => mt (congrArg Prod.fst) hlt.ne

/-- Settles O15: the two lists have the same cells, and each is in rising order of address. -/
theorem canonicalMemoriesThatReadAlikeAreEqual : Obligations.CanonicalMemoriesThatReadAlikeAreEqual := by
  intro m n hm hn hread
  have hperm : m.Perm n := (List.perm_ext_iff_of_nodup (Memory.nodup_of_wf hm) (Memory.nodup_of_wf hn)).mpr fun c => by
    rw [Memory.mem_iff_read hm, Memory.mem_iff_read hn, hread]
  exact hperm.eq_of_pairwise (fun c d _ _ hcd hdc => absurd hcd hdc.asymm) hm.1 hn.1

/-! ### The invariant at reset and after a load -/

/-- Settles O11: memory is empty, no flag is set, and the record is that of a running core. -/
theorem resetMeetsTheInvariant : Obligations.ResetMeetsTheInvariant :=
  ⟨State.reset_mem_wf, by decide, by decide⟩

theorem State.loadImage_inv {image : List Byte} (hlen : image.length ≤ Config.memSize) :
    State.Inv { State.reset with mem := Memory.ofImageAt 0 image } :=
  ⟨Memory.ofImageAt_wf image 0 (by rwa [Nat.zero_add]), resetMeetsTheInvariant.2⟩

theorem State.reset_reg (r : RegIdx) : State.reset.reg r = if r = 7 then 0xF4#8 else 0x00#8 := by
  revert r
  decide

/-- Settles O13: a load changes nothing but memory in the reset state, and beyond the image no cell is listed. -/
theorem loadedImageGivesTheResetState : Obligations.LoadedImageGivesTheResetState := by
  refine fun image => ⟨fun hlen => if_neg (Nat.not_le.mpr hlen), fun hlen => ?_⟩
  refine ⟨_, State.loadImage_eq_some.mpr ⟨hlen, rfl⟩, State.loadImage_inv hlen, State.reset_reg, rfl, rfl, fun a ha => ?_,
    rfl, rfl, rfl, rfl⟩
  rw [State.memRead, Memory.read_ofImage, List.getD_eq_default _ _ ha, Memory.unlisted]

/-! ### The invariant along a step -/

theorem compareFlags_E (x y : Byte) : (compareFlags x y).E = true ↔ x.toNat = y.toNat := by
  rw [BitVec.toNat_inj, compareFlags]
  split
  · simp [*]
  · split <;> simp [*]

theorem compareFlags_L (x y : Byte) : (compareFlags x y).L = true ↔ x.toNat < y.toNat := by
  rw [compareFlags]
  split
  · simp [*]
  · split <;> simp [*]

theorem compareFlags_G (x y : Byte) : (compareFlags x y).G = true ↔ y.toNat < x.toNat := by
  rw [compareFlags]
  split
  · simp [*]
  · next hne =>
    have hne : x.toNat ≠ y.toNat := mt BitVec.eq_of_toNat_eq hne
    split <;> simp <;> omega

/-- No two bytes are in two of the relations equal, below and above. -/
theorem compareFlags_exclusive (x y : Byte) : (compareFlags x y).exclusive := by
  simp only [Flags.exclusive, compareFlags_E, compareFlags_L, compareFlags_G]
  omega

theorem Operated.fl_exclusive {s u : State} {i : Instr} (h : Operated s i u) (hs : s.fl.exclusive) : u.fl.exclusive := by
  obtain hfl | ⟨a, b, rfl⟩ := h.fl_eq_or_cmp
  · rwa [hfl]
  · obtain ⟨ra, rb, -, -, rfl⟩ := h
    exact compareFlags_exclusive _ _

theorem Operated.mem_wf {s u : State} {i : Instr} (h : Operated s i u) (hs : s.mem.wf) : u.mem.wf := by
  obtain hmem | ⟨-, v, hmem⟩ := h.mem_cases
  · rwa [hmem]
  · rw [hmem]; exact Memory.write_wf _ _ _ hs

theorem Operated.recordLegal {s u : State} {i : Instr} (h : Operated s i u) (hs : s.recordLegal) : u.recordLegal := by
  obtain ⟨hcause, hinfo⟩ := h.record_eq
  rwa [State.recordLegal, h.runState_eq, hcause, hinfo]

/-- The record an instruction ends a run with is a row of the table of R35. -/
theorem Stopped.recordLegal {s : State} {i : Instr} {r : StopRecord} (h : Stopped s i r) : (s.stop r).recordLegal := by
  rcases h with ⟨-, rfl⟩ | ⟨-, hgt, hr⟩ | ⟨_, _, _, _, -, -, -, -, rfl⟩
  · exact ⟨rfl, fun _ => rfl, nofun, nofun⟩
  · simp [State.recordLegal, hr, hgt]
  · exact ⟨rfl, fun _ => rfl, nofun, nofun⟩

theorem recordLegal_stop_unknown {op : Byte} (h : mnemonicOf op = none) (s : State) :
    (s.stop ⟨.unknownOpcode, op⟩).recordLegal := by
  simp [State.recordLegal, h]

theorem State.Inv.advance {u : State} (h : u.Inv) (op : Byte) : (u.advance op).Inv := by
  simpa [State.Inv, State.recordLegal] using h

/-- Settles O14: an operation keeps each part of the invariant; a fault and HLT keep memory and flags and write a legal
record. -/
theorem everyStepKeepsTheInvariant : Obligations.EveryStepKeepsTheInvariant := by
  rintro s t ⟨hmem, hfl, hrec⟩ h
  obtain ⟨-, ⟨i, -, hexec⟩ | ⟨hunk, rfl⟩⟩ := step_next h
  · obtain ⟨r, hr, rfl⟩ | ⟨u, hu, rfl⟩ := exec_next hexec
    · exact ⟨hmem, hfl, hr.recordLegal⟩
    · exact State.Inv.advance ⟨hu.mem_wf hmem, hu.fl_exclusive hfl, hu.recordLegal hrec⟩ _
  · exact ⟨hmem, hfl, recordLegal_stop_unknown hunk s⟩

/-- Settles O27: in a legal record the cause fixes the run state, and the exit code is read off the cause. -/
theorem exitCodeFollowsTheEndOfTheRun : Obligations.ExitCodeFollowsTheEndOfTheRun := by
  rintro s ⟨-, -, hrun, -⟩
  rw [State.exitCode, State.endedNormally, hrun]
  cases s.cause with
  | none | hlt | divisionByZero | unknownOpcode | invalidRegisterIndex => simp [Cause.runState, Cause.exitCode]

end Sys2Proof.Machine
end

section
/-! PROOFS. Statements about what a step writes, reads and ends (`20_memory.md` sections 1, 2 and 4, `60_exceptions.md`,
`43_direct.md`): the byte of PUSH and CALL, the steps that leave `running`, and two runs from states that differ in memory. -/

namespace Sys2Proof.Machine

/-! ### Faults and HLT -/

/-- Settles O23: `stop` writes nothing but the run state and the fault record. -/
theorem firstRegisterByteAboveSevenFaults : Obligations.FirstRegisterByteAboveSevenFaults :=
  fun _ _ b s hm ha => exec_withOperands_of_gt hm ha b s

/-- Settles O24: the index fault of the second byte, for MOD before its zero test. -/
theorem secondRegisterByteAboveSevenFaults : Obligations.SecondRegisterByteAboveSevenFaults :=
  fun _ _ _ s hm ha hb => exec_withOperands_of_le_of_gt hm ha hb s

/-- Settles O25: the fault entry of DivisionByZero. -/
theorem modByZeroHalts : Obligations.ModByZeroHalts :=
  fun _ _ _ _ _ => exec_mod_zero

/-- Settles O26: HLT is `stop` with cause Hlt, without an advance. -/
theorem hltHaltsAndChangesNothingElse : Obligations.HltHaltsAndChangesNothingElse :=
  fun _ => rfl

/-! ### The steps that write memory, and those that leave `running` -/

/-- Settles O17: a fault and HLT keep memory; an operation that writes it is PUSH's or CALL's. -/
theorem onlyPushAndCallWriteMemory : Obligations.OnlyPushAndCallWriteMemory := by
  intro s t h a hne
  obtain ⟨-, ⟨i, hi, hexec⟩ | ⟨-, rfl⟩⟩ := step_next h
  · obtain ⟨r, -, rfl⟩ | ⟨u, hu, rfl⟩ := exec_next hexec
    · exact absurd rfl hne
    · rw [State.memRead_advance] at hne
      obtain hmem | ⟨⟨v, hv⟩, w, hmem⟩ := hu.mem_cases
      · exact absurd (by rw [State.memRead, hmem, State.memRead]) hne
      · refine ⟨?_, v, hv.imp (hi.trans <| congrArg _ ·) (hi.trans <| congrArg _ ·)⟩
        by_contra ha
        exact hne (by rw [State.memRead, hmem, Memory.read_write_other _ _ _ _ ha, State.memRead])
  · exact absurd rfl hne

/-- A step that leaves `running` is the fault entry, or HLT: the state before it with the run state and the record written. -/
theorem step_not_running {s t : State} (h : step s = .next t) (ht : t.runState ≠ .running) :
    ∃ r, t = s.stop r ∧
      ((mnemonicOf s.fetch.op = none ∧ r = ⟨.unknownOpcode, s.fetch.op⟩) ∨ ∃ i, decode s.fetch = .ok i ∧ Stopped s i r) := by
  obtain ⟨hrun, ⟨i, hi, hexec⟩ | ⟨hunk, rfl⟩⟩ := step_next h
  · obtain ⟨r, hr, rfl⟩ | ⟨u, hu, rfl⟩ := exec_next hexec
    · exact ⟨r, rfl, .inr ⟨i, hi, hr⟩⟩
    · exact absurd (by rw [State.advance_runState, hu.runState_eq, hrun]) ht
  · exact ⟨_, rfl, .inl ⟨hunk, rfl⟩⟩

/-- Settles O20: the step is a `stop`. -/
theorem leavingRunningChangesOnlyTheStatus : Obligations.LeavingRunningChangesOnlyTheStatus := by
  intro s t h ht
  obtain ⟨r, rfl, -⟩ := step_not_running h ht
  rfl

theorem step_halted_iff {s t : State} (h : step s = .next t) :
    t.runState = .halted ↔
      decode s.fetch = .ok .hlt ∨
      ∃ a b ra rb, decode s.fetch = .ok (.mod a b) ∧ namesReg a ra ∧ namesReg b rb ∧ s.reg rb = 0x00#8 := by
  have hrun := (step_next h).1
  constructor
  · intro ht
    obtain ⟨r, rfl, ⟨-, rfl⟩ | ⟨i, hi, hr⟩⟩ := step_not_running h (by rw [ht]; nofun)
    · cases ht
    · rcases hr with ⟨rfl, -⟩ | ⟨-, -, hr⟩ | ⟨a, b, ra, rb, rfl, ha, hb, hz, -⟩
      · exact .inl hi
      · rw [State.stop_runState, hr] at ht
        cases ht
      · exact .inr ⟨a, b, ra, rb, hi, ha, hb, hz⟩
  · rintro (hi | ⟨a, b, ra, rb, hi, ha, hb, hz⟩)
    · rw [step_of_decode hrun hi] at h
      cases h
      rfl
    · rw [step_of_decode hrun hi, exec_mod_zero ha hb hz] at h
      cases h
      rfl

theorem step_fatalError_iff {s t : State} (h : step s = .next t) :
    t.runState = .fatalError ↔ mnemonicOf s.fetch.op = none ∨ ∃ i, decode s.fetch = .ok i ∧ i.wf = false := by
  have hrun := (step_next h).1
  constructor
  · intro ht
    obtain ⟨r, rfl, ⟨hunk, -⟩ | ⟨i, hi, hr⟩⟩ := step_not_running h (by rw [ht]; nofun)
    · exact .inl hunk
    · refine .inr ⟨i, hi, Bool.eq_false_iff.mpr fun hwf => ?_⟩
      have hhalted := hr.runState_of_wf hwf
      cases hhalted.symm.trans ht
  · rintro (hunk | ⟨i, hi, hwf⟩)
    · rw [step_of_unknown hrun hunk] at h
      cases h
      rfl
    · obtain ⟨v, -, hv⟩ := exec_of_not_wf hwf
      rw [step_of_decode hrun hi, hv] at h
      cases h
      rfl

theorem step_running_record {s t : State} (h : step s = .next t) (ht : t.runState = .running) :
    t.cause = s.cause ∧ t.info = s.info := by
  obtain ⟨-, ⟨i, -, hexec⟩ | ⟨-, rfl⟩⟩ := step_next h
  · obtain ⟨r, hr, rfl⟩ | ⟨u, hu, rfl⟩ := exec_next hexec
    · exact absurd ht hr.runState_ne
    · rw [State.advance_cause, State.advance_info]
      exact hu.record_eq
  · cases ht

/-- Settles O21, one part per run state. -/
theorem exactlyTheseStepsEndTheRun : Obligations.ExactlyTheseStepsEndTheRun :=
  fun _ _ h => ⟨step_halted_iff h, step_fatalError_iff h, step_running_record h⟩

/-! ### Two runs from states that differ in memory -/

/-- From the states `s` and `s'` the states `t` and `t'` are reached in lockstep: they differ in memory alone, and each byte is
the same in both or was left alone in both. -/
def MemoryCarried (s s' t t' : State) : Prop :=
  SameButMemory t t' ∧
    ∀ a : Byte, t'.memRead a = t.memRead a ∨ (t.memRead a = s.memRead a ∧ t'.memRead a = s'.memRead a)

theorem MemoryCarried.advance {s s' u u' : State} (h : MemoryCarried s s' u u') (op : Byte) :
    MemoryCarried s s' (u.advance op) (u'.advance op) := by
  obtain ⟨hsame, hmem⟩ := h
  refine ⟨?_, by simpa using hmem⟩
  rw [hsame]
  simp only [SameButMemory, State.advance]
  split <;> rfl

/-- The same byte stored at the same address is the same in both, and every other byte is left alone in both. -/
theorem memoryCarried_of_write {s s' u u' : State} {addr v : Byte} (hsame : SameButMemory u u')
    (hu : u.mem = s.mem.write addr v) (hu' : u'.mem = s'.mem.write addr v) : MemoryCarried s s' u u' := by
  refine ⟨hsame, fun a => ?_⟩
  simp only [State.memRead, hu, hu', Memory.read_write]
  split
  · exact .inl rfl
  · exact .inr ⟨rfl, rfl⟩

/-- An operation reads memory only where it is POP's or RET's, at the stack pointer. -/
theorem Operated.with_other_memory {s s' u : State} {i : Instr} (h : Operated s i u) (hsame : SameButMemory s s')
    (hread : (i = .ret ∨ ∃ v, i = .pop v) → s'.memRead s.sp = s.memRead s.sp) :
    ∃ u', Operated s' i u' ∧ MemoryCarried s s' u u' := by
  obtain ⟨m, rfl⟩ : ∃ m, s' = { s with mem := m } := ⟨_, hsame⟩
  cases i with
  | hlt => exact h.elim
  | ret =>
    cases h
    refine ⟨_, rfl, ?_, fun _ => .inr ⟨rfl, rfl⟩⟩
    rw [← hread (.inl rfl)]
    rfl
  | pop a =>
    obtain ⟨ra, ha, rfl⟩ := h
    refine ⟨_, ⟨ra, ha, rfl⟩, ?_, fun _ => .inr ⟨rfl, rfl⟩⟩
    rw [← hread (.inr ⟨a, rfl⟩)]
    rfl
  | push a | call a =>
    obtain ⟨ra, ha, rfl⟩ := h
    exact ⟨_, ⟨ra, ha, rfl⟩, memoryCarried_of_write rfl rfl rfl⟩
  | prn a | jmp a | jeq a | jne a | not a | ldi a imm =>
    obtain ⟨ra, ha, rfl⟩ := h
    exact ⟨_, ⟨ra, ha, rfl⟩, rfl, fun _ => .inr ⟨rfl, rfl⟩⟩
  | add a b | sub a b | mul a b | cmp a b | and a b | or a b | xor a b | shl a b | shr a b =>
    obtain ⟨ra, rb, ha, hb, rfl⟩ := h
    exact ⟨_, ⟨ra, rb, ha, hb, rfl⟩, rfl, fun _ => .inr ⟨rfl, rfl⟩⟩
  | mod a b =>
    obtain ⟨ra, rb, ha, hb, hz, rfl⟩ := h
    exact ⟨_, ⟨ra, rb, ha, hb, hz, rfl⟩, rfl, fun _ => .inr ⟨rfl, rfl⟩⟩

/-- An instruction that ends a run does so from every state with the same registers, with the same record. -/
theorem exec_stop_of_regs_eq {s s' : State} {i : Instr} {r : StopRecord} (hr : Stopped s i r)
    (h : exec i s = .next (s.stop r)) (hregs : s'.regs = s.regs) : exec i s' = .next (s'.stop r) := by
  rcases hr with ⟨rfl, rfl⟩ | ⟨hwf, -, -⟩ | ⟨a, b, ra, rb, rfl, ha, hb, hz, rfl⟩
  · rfl
  · obtain ⟨v, -, hv⟩ := exec_of_not_wf hwf
    have hstop : s.stop ⟨.invalidRegisterIndex, v⟩ = s.stop r := Host.Outcome.next.inj ((hv s).symm.trans h)
    have hcause : Cause.invalidRegisterIndex = r.cause := congrArg State.cause hstop
    have hinfo : v = r.info := congrArg State.info hstop
    rw [hv, hcause, hinfo]
  · exact exec_mod_zero ha hb (by rw [State.reg, hregs]; exact hz)

theorem memoryCarried_stop {s s' : State} (hsame : SameButMemory s s') (r : StopRecord) :
    MemoryCarried s s' (s.stop r) (s'.stop r) :=
  ⟨congrArg (State.stop · r) hsame, fun _ => .inr ⟨rfl, rfl⟩⟩

theorem exec_with_other_memory {s s' t : State} {i : Instr} (hsame : SameButMemory s s')
    (hread : (i = .ret ∨ ∃ v, i = .pop v) → s'.memRead s.sp = s.memRead s.sp) (h : exec i s = .next t) :
    ∃ t', exec i s' = .next t' ∧ MemoryCarried s s' t t' := by
  obtain ⟨r, hr, rfl⟩ | ⟨u, hu, rfl⟩ := exec_next h
  · exact ⟨_, exec_stop_of_regs_eq hr h (by rw [hsame]), memoryCarried_stop hsame r⟩
  · obtain ⟨u', hu', hcarried⟩ := hu.with_other_memory hsame hread
    exact ⟨_, exec_of_operated hu', hcarried.advance _⟩

/-- Settles O18: the second state fetches the same instruction, whose operation or fault is carried over to it. -/
theorem stepDependsOnlyOnTheBytesItReads : Obligations.StepDependsOnlyOnTheBytesItReads := by
  intro s s' t hsame hfetch hread h
  obtain ⟨hrun, hcase⟩ := step_next h
  have hrun' : s'.runState = .running := by rw [hsame, hrun]
  obtain ⟨i, hi, hexec⟩ | ⟨hunk, rfl⟩ := hcase
  · rw [step_of_decode hrun' (hfetch ▸ hi)]
    simp only [hi, Except.ok.injEq] at hread
    exact exec_with_other_memory hsame hread hexec
  · rw [← hfetch, step_of_unknown hrun' (hfetch ▸ hunk)]
    exact ⟨_, rfl, memoryCarried_stop hsame _⟩

end Sys2Proof.Machine
end

section
/-! PROOFS. Statements about the ALU and the direct instructions (`40_alu.md`, `43_direct.md`): each completes
(`exec_of_operated`), with the result in one register, the flags or the output, the advance by its length, and its frame. -/

namespace Sys2Proof.Machine

/-! ### The frame of an instruction that writes one register -/

theorem regsKept_of_regs_eq {s t : State} (h : t.regs = s.regs) : RegsKept s t :=
  fun _ => by rw [State.reg, h, State.reg]

theorem memoryKept_of_mem_eq {s t : State} (h : t.mem = s.mem) : MemoryKept s t :=
  fun _ => by rw [State.memRead, h, State.memRead]

theorem onlyRegisterWritten_setReg_advance (s : State) (r : RegIdx) (v op : Byte) :
    OnlyRegisterWritten s ((s.setReg r v).advance op) r := by
  refine ⟨fun q hq => ?_, State.advance_fl _ op, memoryKept_of_mem_eq (State.advance_mem _ op),
    StatusKept.advance ⟨rfl, rfl, rfl⟩ op, State.advance_out _ op⟩
  rw [State.reg_advance, State.reg_setReg, if_neg hq]

/-- An instruction whose operation writes `v` to register `r` completes, advances by its length and keeps everything else. -/
theorem exec_writes_register {i : Instr} {s : State} {r : RegIdx} {v : Byte} (h : Operated s i (s.setReg r v))
    (hpc : i.mnemonic.setsPc = false) :
    ∃ t, exec i s = .next t ∧ t.reg r = v ∧
      t.pc.toNat = (s.pc.toNat + (1 + i.mnemonic.format.operandCount)) % 256 ∧ OnlyRegisterWritten s t r := by
  refine ⟨_, exec_of_operated h, ?_, State.toNat_pc_advance hpc _, onlyRegisterWritten_setReg_advance s r v _⟩
  rw [State.reg_advance, State.reg_setReg_same]

/-! ### What the ALU computes, as numbers -/

theorem toNat_aluAdd (x y : Byte) : (aluAdd x y).toNat = (x.toNat + y.toNat) % 256 :=
  BitVec.toNat_add x y

theorem toNat_aluSub (x y : Byte) : (aluSub x y).toNat = (x.toNat + 256 - y.toNat) % 256 := by
  rw [aluSub, BitVec.toNat_sub]
  omega

theorem toNat_aluMul (x y : Byte) : (aluMul x y).toNat = x.toNat * y.toNat % 256 :=
  BitVec.toNat_ofNat _ _

/-- The remainder is at most the dividend, so it is a byte. -/
theorem toNat_aluMod (x y : Byte) : (aluMod x y).toNat = x.toNat % y.toNat := by
  rw [aluMod, BitVec.toNat_ofNat]
  exact Nat.mod_eq_of_lt ((Nat.mod_le _ _).trans_lt x.isLt)

theorem toNat_aluNot (x : Byte) : (aluNot x).toNat = 255 - x.toNat :=
  BitVec.toNat_not

theorem toNat_aluShl (x n : Byte) : (aluShl x n).toNat = x.toNat * 2 ^ n.toNat % 256 :=
  BitVec.toNat_ofNat _ _

/-- The quotient is at most the dividend, so it is a byte. -/
theorem toNat_aluShr (x n : Byte) : (aluShr x n).toNat = x.toNat / 2 ^ n.toNat := by
  rw [aluShr, BitVec.toNat_ofNat]
  exact Nat.mod_eq_of_lt ((Nat.div_le_self _ _).trans_lt x.isLt)

theorem getLsbD_aluAnd (x y : Byte) (k : Nat) : (aluAnd x y).getLsbD k = (x.getLsbD k && y.getLsbD k) :=
  BitVec.getLsbD_and

theorem getLsbD_aluOr (x y : Byte) (k : Nat) : (aluOr x y).getLsbD k = (x.getLsbD k || y.getLsbD k) :=
  BitVec.getLsbD_or

theorem getLsbD_aluXor (x y : Byte) (k : Nat) : (aluXor x y).getLsbD k = (x.getLsbD k != y.getLsbD k) := by
  rw [aluXor, BitVec.getLsbD_xor, Bool.bne_eq_xor]

/-! ### The ALU instructions -/

/-- Settles O28: `aluAdd` is the sum modulo 256. -/
theorem addWritesTheSumModulo256 : Obligations.AddWritesTheSumModulo256 := by
  intro s a b ra rb ha hb
  obtain ⟨t, ht, hv, hpc, hframe⟩ := exec_writes_register (i := .add a b) ⟨ra, rb, ha, hb, rfl⟩ rfl
  exact ⟨t, ht, by rw [hv, toNat_aluAdd], hpc, hframe⟩

/-- Settles O29: `aluSub` is the difference modulo 256. -/
theorem subWritesTheDifferenceModulo256 : Obligations.SubWritesTheDifferenceModulo256 := by
  intro s a b ra rb ha hb
  obtain ⟨t, ht, hv, hpc, hframe⟩ := exec_writes_register (i := .sub a b) ⟨ra, rb, ha, hb, rfl⟩ rfl
  exact ⟨t, ht, by rw [hv, toNat_aluSub], hpc, hframe⟩

/-- Settles O30: `aluMul` is the product modulo 256. -/
theorem mulWritesTheProductModulo256 : Obligations.MulWritesTheProductModulo256 := by
  intro s a b ra rb ha hb
  obtain ⟨t, ht, hv, hpc, hframe⟩ := exec_writes_register (i := .mul a b) ⟨ra, rb, ha, hb, rfl⟩ rfl
  exact ⟨t, ht, by rw [hv, toNat_aluMul], hpc, hframe⟩

/-- Settles O31: the quotient is the multiple of the divisor by which the remainder differs from the dividend. -/
theorem modWritesTheUnsignedRemainder : Obligations.ModWritesTheUnsignedRemainder := by
  intro s a b ra rb ha hb hz
  obtain ⟨t, ht, hv, hpc, hframe⟩ := exec_writes_register (i := .mod a b) ⟨ra, rb, ha, hb, hz, rfl⟩ rfl
  have hpos : 0 < (s.reg rb).toNat := Nat.pos_of_ne_zero fun h0 => hz (BitVec.eq_of_toNat_eq h0)
  refine ⟨t, ht, ?_, ⟨(s.reg ra).toNat / (s.reg rb).toNat, ?_⟩, hpc, hframe⟩
  · rw [hv, toNat_aluMod]
    exact Nat.mod_lt _ hpos
  · rw [hv, toNat_aluMod, Nat.div_add_mod']

/-- Settles O32: one instruction and one bit of its result at a time. -/
theorem andOrXorActOnEachBit : Obligations.AndOrXorActOnEachBit := by
  intro s a b ra rb ha hb
  refine ⟨?_, ?_, ?_⟩
  · obtain ⟨t, ht, hv, hpc, hframe⟩ := exec_writes_register (i := .and a b) ⟨ra, rb, ha, hb, rfl⟩ rfl
    exact ⟨t, ht, fun k _ => by rw [hv, getLsbD_aluAnd], hpc, hframe⟩
  · obtain ⟨t, ht, hv, hpc, hframe⟩ := exec_writes_register (i := .or a b) ⟨ra, rb, ha, hb, rfl⟩ rfl
    exact ⟨t, ht, fun k _ => by rw [hv, getLsbD_aluOr], hpc, hframe⟩
  · obtain ⟨t, ht, hv, hpc, hframe⟩ := exec_writes_register (i := .xor a b) ⟨ra, rb, ha, hb, rfl⟩ rfl
    exact ⟨t, ht, fun k _ => by rw [hv, getLsbD_aluXor], hpc, hframe⟩

/-- Settles O33: `aluNot` subtracts from 255, and NOT has one operand byte. -/
theorem notWritesTheComplement : Obligations.NotWritesTheComplement := by
  intro s a ra ha
  obtain ⟨t, ht, hv, hpc, hframe⟩ := exec_writes_register (i := .not a) ⟨ra, ha, rfl⟩ rfl
  exact ⟨t, ht, by rw [hv, toNat_aluNot], hpc, hframe⟩

/-- Settles O34: `aluShl` multiplies by the power of two, modulo 256. -/
theorem shlShiftsByTheWholeByte : Obligations.ShlShiftsByTheWholeByte := by
  intro s a b ra rb ha hb
  obtain ⟨t, ht, hv, hpc, hframe⟩ := exec_writes_register (i := .shl a b) ⟨ra, rb, ha, hb, rfl⟩ rfl
  exact ⟨t, ht, by rw [hv, toNat_aluShl], hpc, hframe⟩

/-- Settles O35: `aluShr` divides by the power of two. -/
theorem shrShiftsLogicallyByTheWholeByte : Obligations.ShrShiftsLogicallyByTheWholeByte := by
  intro s a b ra rb ha hb
  obtain ⟨t, ht, hv, hpc, hframe⟩ := exec_writes_register (i := .shr a b) ⟨ra, rb, ha, hb, rfl⟩ rfl
  exact ⟨t, ht, by rw [hv, toNat_aluShr], hpc, hframe⟩

/-! ### CMP and the trace line after it -/

/-- Settles O36: the flags are those of `compareFlags`. -/
theorem cmpSetsExactlyTheFlagOfTheOrder : Obligations.CmpSetsExactlyTheFlagOfTheOrder := by
  intro s a b ra rb ha hb
  refine ⟨_, exec_cmp_of_namesReg ha hb s, ?_, ?_, ?_, State.toNat_pc_advance rfl _,
    regsKept_of_regs_eq (State.advance_regs _ _), memoryKept_of_mem_eq (State.advance_mem _ _),
    StatusKept.advance ⟨rfl, rfl, rfl⟩ _, State.advance_out _ _⟩
  · rw [State.advance_fl, State.setFl_fl, compareFlags_E]
  · rw [State.advance_fl, State.setFl_fl, compareFlags_L]
  · rw [State.advance_fl, State.setFl_fl, compareFlags_G]

/-- The byte of FL after a CMP, in the packing of R31. -/
theorem toByte_compareFlags (x y : Byte) :
    (compareFlags x y).toByte = if x.toNat = y.toNat then 0x01#8 else if x.toNat < y.toNat then 0x04#8 else 0x02#8 := by
  simp only [compareFlags, BitVec.toNat_inj]
  split
  · rfl
  · split <;> rfl

theorem State.trace_of_running {t : State} (hrun : t.runState = .running) :
    t.trace = some ⟨t.pc, t.fl.toByte, t.memRead t.pc, t.memRead (t.pc + 1#8), t.memRead (t.pc + 2#8), t.regs⟩ := by
  simp only [State.trace, hrun, State.fetch]

/-- Settles O37: the trace line of a running state, with the flags, memory and registers of the state after the CMP. -/
theorem traceShowsTheFlagsOfACompare : Obligations.TraceShowsTheFlagsOfACompare := by
  intro s a b ra rb ha hb hrun
  refine ⟨_, exec_cmp_of_namesReg ha hb s, ?_⟩
  rw [State.trace_of_running (by rw [State.advance_runState, State.setFl_runState, hrun]), State.advance_fl, State.setFl_fl,
    toByte_compareFlags, State.advance_regs, State.setFl_regs]
  simp only [State.memRead, State.advance_mem, State.setFl_mem]

/-! ### LDI and PRN -/

/-- Settles O48: LDI's operation writes its immediate. -/
theorem ldiWritesTheImmediate : Obligations.LdiWritesTheImmediate := by
  intro s a imm ra ha
  exact exec_writes_register (i := .ldi a imm) ⟨ra, ha, rfl⟩ rfl

theorem exec_prn_of_namesReg {a : Byte} {ra : RegIdx} (ha : namesReg a ra) (s : State) :
    exec (.prn a) s = .next ((s.emit (s.reg ra)).advance (opcode .prn)) :=
  exec_of_operated (i := .prn a) ⟨ra, ha, rfl⟩

/-- Settles O49: PRN's operation appends the register. -/
theorem prnAppendsTheRegisterToTheOutput : Obligations.PrnAppendsTheRegisterToTheOutput := by
  intro s a ra ha
  exact ⟨_, exec_prn_of_namesReg ha s, State.advance_out _ _, State.toNat_pc_advance rfl _,
    regsKept_of_regs_eq (State.advance_regs _ _), State.advance_fl _ _, memoryKept_of_mem_eq (State.advance_mem _ _),
    StatusKept.advance ⟨rfl, rfl, rfl⟩ _⟩

/-- Settles O50: PRN after LDI appends the register, which is the immediate. -/
theorem ldiThenPrnPrintsTheImmediate : Obligations.LdiThenPrnPrintsTheImmediate := by
  intro s a imm ra ha
  obtain ⟨t, ht, hreg, -, -, -, -, -, hout⟩ := ldiWritesTheImmediate s a imm ra ha
  obtain ⟨u, hu, huout, -⟩ := prnAppendsTheRegisterToTheOutput t a ra ha
  exact ⟨t, u, ht, hu, by rw [huout, hreg, hout]⟩

end Sys2Proof.Machine
end

section
/-! PROOFS. Statements about branches, the stack and subroutines (`42_branch.md`, `41_stack_call.md`): each instruction by what it
answers, then PUSH with POP, CALL with RET, and a store with the next fetch. -/

namespace Sys2Proof.Machine

/-! ### Branches -/

/-- An instruction that sets `pc` itself answers what its operation left: the advance adds nothing (R154). -/
theorem exec_of_operated_setsPc {i : Instr} {s u : State} (h : Operated s i u) (hpc : i.mnemonic.setsPc = true) :
    exec i s = .next u := by
  rw [exec_of_operated h, State.advance_opcode, if_pos hpc]

theorem onlyPcWritten_setPc (s : State) (v : Byte) : OnlyPcWritten s (s.setPc v) :=
  ⟨fun _ => rfl, rfl, fun _ => rfl, ⟨rfl, rfl, rfl⟩, rfl⟩

theorem State.toNat_pcPlus2 (s : State) : s.pcPlus2.toNat = (s.pc.toNat + 2) % 256 :=
  BitVec.toNat_add s.pc 2#8

/-- Settles O46: JMP sets `pc` itself, so nothing is added to the register. -/
theorem jmpSetsPcToTheRegister : Obligations.JmpSetsPcToTheRegister := by
  intro s a ra ha
  exact ⟨_, exec_of_operated_setsPc (i := .jmp a) ⟨ra, ha, rfl⟩ rfl, rfl, onlyPcWritten_setPc s _⟩

theorem branchIf_true {c : Bool} (hc : c = true) (ra : RegIdx) (s : State) : (branchIf c ra s).pc = s.reg ra := by
  rw [branchIf, if_pos hc, State.setPc_pc]

theorem branchIf_false {c : Bool} (hc : c = false) (ra : RegIdx) (s : State) :
    (branchIf c ra s).pc.toNat = (s.pc.toNat + 2) % 256 := by
  rw [branchIf, hc, if_neg Bool.false_ne_true, State.setPc_pc, State.toNat_pcPlus2]

/-- Settles O47: JEQ and JNE are `branchIf` on the Equal flag and on its complement. -/
theorem jeqAndJneFollowTheEqualFlag : Obligations.JeqAndJneFollowTheEqualFlag := by
  intro s a ra ha
  refine ⟨⟨_, exec_of_operated_setsPc (i := .jeq a) ⟨ra, ha, rfl⟩ rfl, onlyPcWritten_setPc s _,
      fun hE => branchIf_true hE ra s, fun hE => branchIf_false hE ra s⟩,
    ⟨_, exec_of_operated_setsPc (i := .jne a) ⟨ra, ha, rfl⟩ rfl, onlyPcWritten_setPc s _,
      fun hE => branchIf_true (congrArg Bool.not hE) ra s, fun hE => branchIf_false (congrArg Bool.not hE) ra s⟩⟩

/-! ### PUSH, POP, CALL and RET -/

theorem State.reg_decSp (s : State) (q : RegIdx) : s.decSp.reg q = if q = 7 then s.sp - 1#8 else s.reg q :=
  State.reg_setSp s q _

/-- The frame of PUSH and CALL before control goes on: the stack pointer moves and one byte is stored there. -/
theorem onlyStackWritten_store (s : State) (v : Byte) :
    OnlyStackWritten s (s.decSp.memWrite s.decSp.sp v) s.decSp.sp := by
  refine ⟨fun q hq => ?_, rfl, fun a ha => ?_, ⟨rfl, rfl, rfl⟩, rfl⟩
  · rw [State.reg_memWrite, State.decSp, State.reg_setSp, if_neg hq]
  · rw [State.memRead_memWrite, if_neg ha]
    rfl

theorem OnlyStackWritten.advance {s u : State} {addr : Byte} (h : OnlyStackWritten s u addr) (op : Byte) :
    OnlyStackWritten s (u.advance op) addr := by
  obtain ⟨hregs, hfl, hmem, hstatus, hout⟩ := h
  refine ⟨fun q hq => ?_, (State.advance_fl u op).trans hfl, fun a ha => ?_, hstatus.advance op,
    (State.advance_out u op).trans hout⟩
  · rw [State.reg_advance, hregs q hq]
  · rw [State.memRead_advance, hmem a ha]

/-- Settles O38: the operand is read after the decrement (R126), and is what the store left. -/
theorem pushStoresBelowTheStackPointer : Obligations.PushStoresBelowTheStackPointer := by
  intro s a ra ha
  refine ⟨_, exec_push_of_namesReg ha s, ?_, ?_, State.toNat_pc_advance rfl _, (onlyStackWritten_store s _).advance _⟩
  · rw [State.sp_advance, State.sp_memWrite, State.toNat_sp_decSp]
  · rw [State.memRead_advance, State.memRead_memWrite, if_pos rfl, State.reg_decSp]

/-- Settles O39: register 7 is written before it is incremented (R126). -/
theorem popLoadsTheByteAtTheStackPointer : Obligations.PopLoadsTheByteAtTheStackPointer := by
  intro s a ra ha
  refine ⟨_, exec_pop_of_namesReg ha s, fun hne => ⟨?_, ?_⟩, fun h7 => ?_, fun q hq h7 => ?_, State.toNat_pc_advance rfl _,
    State.advance_fl _ _, memoryKept_of_mem_eq (State.advance_mem _ _), StatusKept.advance ⟨rfl, rfl, rfl⟩ _,
    State.advance_out _ _⟩
  · rw [State.reg_advance, State.reg_incSp_of_ne _ hne, State.reg_setReg_same]
  · rw [State.sp_advance, State.toNat_sp_incSp, State.sp_setReg_of_ne s _ hne]
  · have hsp : (s.setReg ra (s.memRead s.sp)).sp = s.memRead s.sp := h7 ▸ State.sp_setSp s _
    rw [State.sp_advance, State.toNat_sp_incSp, hsp]
  · rw [State.reg_advance, State.reg_incSp_of_ne _ h7, State.reg_setReg, if_neg hq]

/-- Settles O40: the operand is read after the decrement (R126). -/
theorem callPushesTheReturnAddressAndJumps : Obligations.CallPushesTheReturnAddressAndJumps := by
  intro s a ra ha
  refine ⟨_, exec_call_of_namesReg ha s, s.toNat_sp_decSp, ?_, State.reg_decSp s ra, onlyStackWritten_store s _⟩
  rw [State.memRead, State.setPc_mem, State.memWrite_mem, Memory.read_write_same, State.toNat_pcPlus2]

/-- Settles O41: RET's answer is its operation. -/
theorem retJumpsToTheByteAtTheStackPointer : Obligations.RetJumpsToTheByteAtTheStackPointer :=
  fun s => ⟨_, exec_ret s, rfl, State.toNat_sp_incSp _, fun _ => State.reg_incSp_of_ne _, rfl, fun _ => rfl,
    ⟨rfl, rfl, rfl⟩, rfl⟩

/-! ### PUSH then POP, CALL then RET -/

theorem State.regs_eq_of_reg_eq {s t : State} (h : ∀ q, t.reg q = s.reg q) : t.regs = s.regs :=
  Vector.ext fun k hk => h ⟨k, hk⟩

/-- Writing a register's own value leaves every register as it was. -/
theorem State.reg_setReg_self (s : State) (r q : RegIdx) : (s.setReg r (s.reg r)).reg q = s.reg q := by
  rw [State.reg_setReg]
  split
  · next h => rw [h]
  · rfl

theorem State.sp_decSp_add_one (s : State) : s.decSp.sp + 1#8 = s.sp := by
  rw [State.sp_decSp, BitVec.sub_add_cancel]

/-- `SP` decremented and then incremented leaves every register as it was. -/
theorem State.reg_incSp_decSp (s : State) (q : RegIdx) : s.decSp.incSp.reg q = s.reg q := by
  rw [State.incSp, State.reg_setSp, State.sp_decSp_add_one]
  split
  · next h => rw [h, State.sp]
  · next h => rw [State.decSp, State.reg_setSp, if_neg h]

theorem State.reg_incSp_congr {s t : State} (h : ∀ q, t.reg q = s.reg q) (q : RegIdx) : t.incSp.reg q = s.incSp.reg q := by
  rw [State.incSp, State.incSp, State.reg_setSp, State.reg_setSp, State.sp, State.sp, h, h]

/-- Settles O43: POP writes back the value its register holds after PUSH, for register 7 the decremented pointer too, and then
undoes the decrement. -/
theorem pushThenPopRestoresTheRegisters : Obligations.PushThenPopRestoresTheRegisters := by
  intro s a ra ha
  obtain ⟨t, ht, -, -, htpc, -, htfl, htmem, htstatus, htout⟩ := pushStoresBelowTheStackPointer s a ra ha
  obtain ⟨u, hu, -, -, -, hupc, hufl, humem, hustatus, huout⟩ := popLoadsTheByteAtTheStackPointer t a ra ha
  refine ⟨t, u, ht, hu, State.regs_eq_of_reg_eq fun q => ?_, by omega, hufl.trans htfl,
    fun b hb => (humem b).trans (htmem b hb), ?_, huout.trans htout⟩
  · have hreg : ∀ q, t.reg q = s.decSp.reg q := by
      cases (exec_push_of_namesReg ha s).symm.trans ht
      exact fun q => State.reg_advance _ q _
    have hstored : t.memRead t.sp = t.reg ra := by
      cases (exec_push_of_namesReg ha s).symm.trans ht
      rw [State.memRead_advance, State.sp_advance, State.sp_memWrite, State.memRead_memWrite, if_pos rfl, hreg]
    cases (exec_pop_of_namesReg ha t).symm.trans hu
    calc
      _ = (t.setReg ra (t.reg ra)).incSp.reg q := by rw [State.reg_advance, hstored]
      _ = s.decSp.incSp.reg q := State.reg_incSp_congr (fun q => (State.reg_setReg_self t ra q).trans (hreg q)) q
      _ = s.reg q := State.reg_incSp_decSp s q
  · obtain ⟨hrun, hcause, hinfo⟩ := hustatus
    obtain ⟨hrun', hcause', hinfo'⟩ := htstatus
    exact ⟨hrun.trans hrun', hcause.trans hcause', hinfo.trans hinfo'⟩

/-- Settles O44: RET jumps to the return address CALL stored and undoes its decrement. -/
theorem returnResumesAfterTheCall : Obligations.ReturnResumesAfterTheCall := by
  intro s t t' a ra ha ht hsp hbyte
  cases (exec_call_of_namesReg ha s).symm.trans ht
  refine ⟨_, exec_ret t', ?_, ?_⟩
  · rw [State.incSp_pc, State.setPc_pc, hsp, hbyte, State.sp_setPc, State.sp_memWrite, State.memRead, State.setPc_mem,
      State.memWrite_mem, Memory.read_write_same, State.toNat_pcPlus2]
  · rw [State.sp_incSp, State.sp_setPc, hsp, State.sp_setPc, State.sp_memWrite, State.sp_decSp_add_one]

/-! ### A store and the next fetch -/

/-- Settles O45: a fetch is a read of memory, which gives what the store wrote. -/
theorem storedByteIsSeenByTheNextFetch : Obligations.StoredByteIsSeenByTheNextFetch := by
  intro s t a ra p ha h
  have hrun := (step_next h).1
  refine ⟨fun hd => ?_, fun hd => ?_, rfl, rfl⟩
  · rw [step_of_decode hrun hd, exec_push_of_namesReg ha] at h
    cases h
    exact (State.memRead_advance _ p _).trans (State.memRead_memWrite s.decSp _ p _)
  · rw [step_of_decode hrun hd, exec_call_of_namesReg ha] at h
    cases h
    exact State.memRead_memWrite s.decSp _ p _

end Sys2Proof.Machine
end
